-- ==== Sys2Proof/Word.lean ====
section
/-! DEFINITION. The two widths of the machine: the 16-bit memory word and the 15-bit value (R6, R7, R51). -/

namespace Sys2Proof

/-- A memory word, 0 to 65535 (R6 `WORD_BITS`, R51). -/
abbrev Word := BitVec 16

/-- An operand value, register value or data address, 0 to 32767 (R6 `VALUE_BITS`, R22). -/
abbrev Value := BitVec 15

/-- A register index, 0 to 7 (R6 `NREGS`, R21). -/
abbrev Reg := Fin 8

/-- The word that holds a value: bit 15 is 0 (R7, R34, R59). -/
def Value.toWord (v : Value) : Word := v.setWidth 16

end Sys2Proof
end

