-- ==== Sys2Proof/Config.lean ====
section
/-! DEFINITION. The fixed values and the named parameters of R6. -/

namespace Sys2Proof.Config

/-- `VALUE_MAX`, the largest value (R6). -/
abbrev valueMax : Nat := 32767

/-- `MEM_WORDS`, the number of memory words (R6). -/
abbrev memWords : Nat := 32768

/-- `REG_BASE`: the operand word `regBase + i` names register `i` (R6). -/
abbrev regBase : Nat := 32768

/-- `REG_LAST`, the last operand word that names a register (R6). -/
abbrev regLast : Nat := 32775

/-- `MAX_ARITY`, the most argument words an instruction has (R6). -/
abbrev maxArity : Nat := 3

/-- `NEWLINE_CODE`. PRESUMED (log 5): the source says only "with the newline appended", and the spec marks the
number as general knowledge. -/
abbrev newlineCode : Nat := 10

/-- `RET_ON_EMPTY_STACK` (R6, R116, D6): what `ret` does on an empty stack. -/
inductive RetOnEmpty where
  /-- A normal end of the run: status HALTED. -/
  | halt
  /-- The fault StackUnderflow. -/
  | fault
deriving DecidableEq, Repr

/-- The parameters of R6 that a step of the engine depends on. R6: "a parameter that the model takes as an
argument". `exec` and `step` have no argument but the state, so a `Params` stands in `State`, and no step changes
it (log 2). -/
structure Params where
  /-- `STACK_CAPACITY` (R34, D7): `none` is the unbounded stack, `some n` the bound `n`. -/
  stackCapacity : Option Nat
  /-- `RET_ON_EMPTY_STACK` (R116, D6). -/
  retOnEmpty : RetOnEmpty
deriving DecidableEq, Repr

/-- The defaults of R6: an unbounded stack, and `halt`. -/
def Params.default : Params := { stackCapacity := none, retOnEmpty := .halt }

/-- The character codes at which a host line is split into words (R186, D21 "split at runs of blanks").
PRESUMED (log 11): the space and the tab, by their usual codes. -/
def isBlank (c : Nat) : Bool := c == 32 || c == 9

/-- The word `save` as character codes (R186). PRESUMED (log 11): the usual codes of its letters. -/
def saveWord : List Nat := [115, 97, 118, 101]

end Sys2Proof.Config
end

