-- ==== Sys2Proof/Syntax.lean ====
section
/-! DEFINITION. The instructions: one constructor per row of spec/opcode_table.json, each argument one
classified argument word (R70, R71, R73, R75). -/

namespace Sys2Proof

/-- One argument word by its class. The class "depends on the word alone, not on the opcode" (R75), and it never
changes the instruction's length (R84), so an instruction may hold an argument of any class. Whether the class is
legal where it stands is `Instr.wellFormed`; what an illegal one does is `Machine.resolve` and `Machine.dest`. -/
inductive Operand where
  /-- Literal mode: a word in [0, 32767]. -/
  | lit (v : Value)
  /-- Register mode: a word in [32768, 32775], which names register `word - 32768`. -/
  | reg (r : Reg)
  /-- A word in [32776, 65535], which no argument position accepts (R81). -/
  | invalid (w : Word)
deriving DecidableEq, Repr

/-- The role of argument 0 (R74, R78). -/
inductive Role where
  /-- The opcode takes no argument. -/
  | none
  /-- Argument 0 is dereferenced, as every later argument is. -/
  | read
  /-- Argument 0 is a destination register. -/
  | write
deriving DecidableEq, Repr

/-- The 22 instructions, in the table's order (R73). `a`, `b` and `c` are arguments 0, 1 and 2 (R9). -/
inductive Instr where
  /-- 0: stop execution (R111). -/
  | halt
  /-- 1: reg[a] = b (R130). -/
  | set (a b : Operand)
  /-- 2: stack.push(a) (R131). -/
  | push (a : Operand)
  /-- 3: reg[a] = stack.pop() (R132). -/
  | pop (a : Operand)
  /-- 4: reg[a] = 1 if b==c else 0 (R140). -/
  | eq (a b c : Operand)
  /-- 5: reg[a] = 1 if b>c else 0 (R141). -/
  | gt (a b c : Operand)
  /-- 6: ip = a (R112). -/
  | jmp (a : Operand)
  /-- 7: if a != 0: ip = b (R113). -/
  | jt (a b : Operand)
  /-- 8: if a == 0: ip = b (R114). -/
  | jf (a b : Operand)
  /-- 9: reg[a] = (b+c) mod 32768 (R150). -/
  | add (a b c : Operand)
  /-- 10: reg[a] = (b*c) mod 32768 (R151). -/
  | mult (a b c : Operand)
  /-- 11: reg[a] = b mod c (R152). -/
  | mod (a b c : Operand)
  /-- 12: reg[a] = b & c (R160). -/
  | and (a b c : Operand)
  /-- 13: reg[a] = b | c (R161). -/
  | or (a b c : Operand)
  /-- 14: reg[a] = (~b) & 0x7FFF (R162). -/
  | not (a b : Operand)
  /-- 15: reg[a] = memory[b] (R171). -/
  | rmem (a b : Operand)
  /-- 16: memory[a] = b (R172). -/
  | wmem (a b : Operand)
  /-- 17: stack.push(ip); ip = a (R115). -/
  | call (a : Operand)
  /-- 18: ip = stack.pop() (R116). -/
  | ret
  /-- 19: emit character chr(a) (R180). -/
  | out (a : Operand)
  /-- 20: reg[a] = next character (R181). The table's mnemonic is `in`, which is a keyword of Lean. -/
  | in_ (a : Operand)
  /-- 21: no effect (R117). -/
  | noop
deriving DecidableEq, Repr

end Sys2Proof
end

