-- ==== Sys2Proof/WellFormed.lean ====
section
/-! DEFINITION. Which instructions are legal: every argument in its legal class (R83: "an opcode word in [0, 21]
followed by its arity's number of argument words, each argument word in its legal class"). -/

namespace Sys2Proof

/-- The legal class of a read position: a literal or a register (R76). -/
def Operand.readable : Operand → Bool
  | .lit _ => true
  | .reg _ => true
  | .invalid _ => false

/-- The legal class of argument 0 of a write-role opcode: a register (R77). -/
def Operand.isDest : Operand → Bool
  | .reg _ => true
  | .lit _ => false
  | .invalid _ => false

/-- An operand is what some argument word classifies to: only a word in [32776, 65535] is an invalid one (R75). -/
def Operand.canonical : Operand → Bool
  | .lit _ => true
  | .reg _ => true
  | .invalid w => decide (32776 ≤ w.toNat)

/-- Every argument of the instruction is in its legal class (R83, R74). -/
def Instr.wellFormed : Instr → Bool
  | .halt | .ret | .noop => true
  | .push a | .jmp a | .call a | .out a => a.readable
  | .pop a | .in_ a => a.isDest
  | .jt a b | .jf a b | .wmem a b => a.readable && b.readable
  | .set a b | .not a b | .rmem a b => a.isDest && b.readable
  | .eq a b c | .gt a b c | .add a b c | .mult a b c | .mod a b c | .and a b c | .or a b c =>
      a.isDest && b.readable && c.readable

end Sys2Proof
end

