-- ==== Sys2Proof/Decode.lean ====
section
/-! DEFINITION. The decoder, total on any word sequence, and after it the encoder, both written from the encoding
tables of 30_encoding.md (R70 to R84). -/

namespace Sys2Proof

/-- The class of an argument word (R75). -/
def classify (w : Word) : Operand :=
  if w.toNat ≤ Config.valueMax then .lit (BitVec.ofNat 15 w.toNat)
  else if w.toNat ≤ Config.regLast then .reg (Fin.ofNat 8 (w.toNat - Config.regBase))
  else .invalid w

/-- Why a word sequence holds no whole instruction. -/
inductive DecodeError where
  /-- There is no opcode word. -/
  | noOpcode
  /-- The opcode word is outside [0, 21] (R82). -/
  | unknownOpcode (op : Word)
  /-- The words end before the last argument: `args` are the argument words there are, of an opcode whose argument 0
  has the role `role`. -/
  | truncated (op : Word) (role : Role) (args : List Word)
deriving DecidableEq, Repr

/-- What decoding a word sequence gives: an instruction with the words after it, or a rejection by name. -/
abbrev Decoded := Except DecodeError (Instr × List Word)

/-- Format F1: one argument word (R71). -/
def decodeF1 (op : Word) (role : Role) (mk : Operand → Instr) : List Word → Decoded
  | a :: rest => .ok (mk (classify a), rest)
  | args => .error (.truncated op role args)

/-- Format F2: two argument words (R71). -/
def decodeF2 (op : Word) (role : Role) (mk : Operand → Operand → Instr) : List Word → Decoded
  | a :: b :: rest => .ok (mk (classify a) (classify b), rest)
  | args => .error (.truncated op role args)

/-- Format F3: three argument words (R71). -/
def decodeF3 (op : Word) (role : Role) (mk : Operand → Operand → Operand → Instr) : List Word → Decoded
  | a :: b :: c :: rest => .ok (mk (classify a) (classify b) (classify c), rest)
  | args => .error (.truncated op role args)

/-- The opcode map: the whole opcode word is compared with 0 to 21 (R72, R73), and each opcode has its format and
the role of its argument 0 (R74). -/
def decodeOpcode (op : Word) (rest : List Word) : Decoded :=
  match op.toNat with
  | 0 => .ok (.halt, rest)
  | 1 => decodeF2 op .write .set rest
  | 2 => decodeF1 op .read .push rest
  | 3 => decodeF1 op .write .pop rest
  | 4 => decodeF3 op .write .eq rest
  | 5 => decodeF3 op .write .gt rest
  | 6 => decodeF1 op .read .jmp rest
  | 7 => decodeF2 op .read .jt rest
  | 8 => decodeF2 op .read .jf rest
  | 9 => decodeF3 op .write .add rest
  | 10 => decodeF3 op .write .mult rest
  | 11 => decodeF3 op .write .mod rest
  | 12 => decodeF3 op .write .and rest
  | 13 => decodeF3 op .write .or rest
  | 14 => decodeF2 op .write .not rest
  | 15 => decodeF2 op .write .rmem rest
  | 16 => decodeF2 op .read .wmem rest
  | 17 => decodeF1 op .read .call rest
  | 18 => .ok (.ret, rest)
  | 19 => decodeF1 op .read .out rest
  | 20 => decodeF1 op .write .in_ rest
  | 21 => .ok (.noop, rest)
  | _ => .error (.unknownOpcode op)

/-- Read one instruction from the front of a word sequence, opcode word first (R70). -/
def decode : List Word → Decoded
  | [] => .error .noOpcode
  | op :: rest => decodeOpcode op rest

/-- The word of an argument: the inverse of `classify` (R75, R88 `enc`). -/
def Operand.toWord : Operand → Word
  | .lit v => v.toWord
  | .reg r => BitVec.ofNat 16 (Config.regBase + r.val)
  | .invalid w => w

/-- The opcode value (R73, column code). -/
def Instr.opcode : Instr → Word
  | .halt => 0
  | .set _ _ => 1
  | .push _ => 2
  | .pop _ => 3
  | .eq _ _ _ => 4
  | .gt _ _ _ => 5
  | .jmp _ => 6
  | .jt _ _ => 7
  | .jf _ _ => 8
  | .add _ _ _ => 9
  | .mult _ _ _ => 10
  | .mod _ _ _ => 11
  | .and _ _ _ => 12
  | .or _ _ _ => 13
  | .not _ _ => 14
  | .rmem _ _ => 15
  | .wmem _ _ => 16
  | .call _ => 17
  | .ret => 18
  | .out _ => 19
  | .in_ _ => 20
  | .noop => 21

/-- The arguments in their order, argument 0 first (R71). -/
def Instr.args : Instr → List Operand
  | .halt | .ret | .noop => []
  | .push a | .pop a | .jmp a | .call a | .out a | .in_ a => [a]
  | .set a b | .jt a b | .jf a b | .not a b | .rmem a b | .wmem a b => [a, b]
  | .eq a b c | .gt a b c | .add a b c | .mult a b c | .mod a b c | .and a b c | .or a b c => [a, b, c]

/-- The role of argument 0 (R74). -/
def Instr.role : Instr → Role
  | .halt | .ret | .noop => .none
  | .push _ | .jmp _ | .jt _ _ | .jf _ _ | .wmem _ _ | .call _ | .out _ => .read
  | .set _ _ | .pop _ | .eq _ _ _ | .gt _ _ _ | .add _ _ _ | .mult _ _ _ | .mod _ _ _ | .and _ _ _ | .or _ _ _
  | .not _ _ | .rmem _ _ | .in_ _ => .write

/-- The argument words (R210: the record's `args` are these, or the first of them). -/
def Instr.argWords (i : Instr) : List Word := i.args.map Operand.toWord

/-- The words of an instruction: the opcode word, then its argument words (R70, R88). -/
def encode (i : Instr) : List Word := i.opcode :: i.argWords

/-- The length in words, `1 + arity` (R84). -/
def Instr.length (i : Instr) : Nat := 1 + i.args.length

/-- One row of the opcode map as the disassembler and R88's syntax use it. -/
structure OpcodeRow where
  code : Nat
  mnemonic : String
  arity : Nat
  role : Role
deriving DecidableEq, Repr

/-- The opcode map of R73, with the role column that R74 recovers. -/
def opcodeMap : List OpcodeRow :=
  [⟨0, "halt", 0, .none⟩, ⟨1, "set", 2, .write⟩, ⟨2, "push", 1, .read⟩, ⟨3, "pop", 1, .write⟩,
   ⟨4, "eq", 3, .write⟩, ⟨5, "gt", 3, .write⟩, ⟨6, "jmp", 1, .read⟩, ⟨7, "jt", 2, .read⟩] ++
  [⟨8, "jf", 2, .read⟩, ⟨9, "add", 3, .write⟩, ⟨10, "mult", 3, .write⟩, ⟨11, "mod", 3, .write⟩,
   ⟨12, "and", 3, .write⟩, ⟨13, "or", 3, .write⟩, ⟨14, "not", 2, .write⟩, ⟨15, "rmem", 2, .write⟩] ++
  [⟨16, "wmem", 2, .read⟩, ⟨17, "call", 1, .read⟩, ⟨18, "ret", 0, .none⟩, ⟨19, "out", 1, .read⟩,
   ⟨20, "in", 1, .write⟩, ⟨21, "noop", 0, .none⟩]

/-- The row of an opcode word, `none` for an unknown opcode (R82). -/
def opcodeRow (op : Word) : Option OpcodeRow := opcodeMap.find? (fun r => r.code == op.toNat)

/-- The words of a table word: `nbits` bits of `w`, bit 0 the least significant bit of the first word, and zeros above
them up to the longest instruction, four words. -/
def tableWords (nbits w : Nat) : List Word :=
  [BitVec.ofNat 16 (w % 2 ^ nbits), BitVec.ofNat 16 (w % 2 ^ nbits / 2 ^ 16),
   BitVec.ofNat 16 (w % 2 ^ nbits / 2 ^ 32), BitVec.ofNat 16 (w % 2 ^ nbits / 2 ^ 48)]

/-- The instruction the decoder reads from a table word. -/
def decodeTableWord (nbits w : Nat) : Option Instr :=
  match decode (tableWords nbits w) with
  | .ok (i, _) => some i
  | .error _ => none

end Sys2Proof
end

