-- ==== Sys2Proof/Machine/State.lean ====
section
/-! DEFINITION. The state of the engine as plain data (10_state.md R20), the two stop reasons of the host-side
operations, and the state after reset (R38). -/

namespace Sys2Proof.Machine

/-- The causes of a fault (R200). -/
inductive Cause where
  /-- An opcode word outside [0, 21] (R201). -/
  | unknownOpcode
  /-- An argument word in [32776, 65535] (R202). -/
  | invalidOperand
  /-- A literal as argument 0 of a write-role opcode (R203). -/
  | invalidDestination
  /-- `pop` on an empty stack, or `ret` on one under `RET_ON_EMPTY_STACK = fault` (R204). -/
  | stackUnderflow
  /-- A memory access at 32768 or above (R205). -/
  | addressError
  /-- `mod` with divisor 0 (R206). -/
  | arithmeticError
  /-- A value above 32767 on its way into a register (R207). -/
  | registerRange
  /-- A push at a depth equal to a finite `STACK_CAPACITY` (R208). -/
  | stackOverflow
deriving DecidableEq, Repr

/-- The fault record (R210). -/
structure FaultRecord where
  cause : Cause
  /-- The address of the faulting instruction's opcode word. -/
  faultPc : Word
  /-- The opcode word; none when the opcode fetch itself raised AddressError. -/
  opcode : Option Word
  /-- The argument words fetched before the fault, in order. -/
  args : List Word
  /-- The offending word, address or value, or none. -/
  value : Option Nat
deriving DecidableEq, Repr

/-- The run status (R31). HALTED and FAULTED are terminal (R32). -/
inductive Status where
  | running
  | halted
  | faulted (record : FaultRecord)
deriving DecidableEq, Repr

/-- The memory as its words that are not 0, each with its address, addresses strictly rising. An address that is not
listed reads 0: "memory zero-filled beyond the image" (R37, R241). The cell is the spec's addressable unit, the 16-bit
word (R52; log 1). -/
abbrev Memory := List (Nat × Word)

/-- The state: the six items of R20, then the model's own two fields. -/
structure State where
  /-- The register file `x[0..7]` (R21, R22). -/
  regs : Vector Value 8
  /-- The program counter, in [0, 32768] (R26). -/
  pc : Word
  /-- The stack `S`, its top first (R34; log 6). -/
  stack : List Word
  /-- The memory `M` (R37). -/
  mem : Memory
  /-- The input buffer, its next code first (R36). -/
  inbuf : List Nat
  /-- The status (R31). -/
  status : Status
  /-- The model's own field (log 3): the values sent on the OUT interface, oldest first (R180, R187). -/
  output : List Value
  /-- The model's own field (log 2): the parameters of R6, which no step changes. -/
  params : Config.Params
deriving DecidableEq, Repr

/-- Why a host-side operation stops. No step raises one of these: a fault of the engine (R200) is a next state whose
status is FAULTED with its record (R85, R211). -/
inductive Fault where
  /-- Raised by `State.deliverLine` and `provideLine` when no line request is raised. R248: "The host is also assumed never to
  deliver a line when no request is raised", so the spec gives such a delivery no effect. Safe: the model stops. -/
  | lineWithoutRequest
  /-- Raised by `State.save` when the status is not RUNNING, and by `State.hostSnapshot` when it is FAULTED. R244: "The
  engine saves only between steps, while RUNNING"; R219 lets the host snapshot a HALTED engine as well (log 19). Safe: the
  model stops. -/
  | saveNotRunning
deriving DecidableEq, Repr

/-- What is refused. -/
inductive Refusal where
  /-- An instruction whose meaning is not written yet; no arm of `exec` uses it. Safe. -/
  | notModelled (mnemonic : String)
  /-- Raised by `loadImage`: an image of more than 32768 words. R241: "The load is refused". Safe: it is the spec's own. -/
  | imageTooLong
  /-- Raised by `loadImageBytes`: a byte image with an odd number of bytes. R241: "The load is refused". Safe: it is the
  spec's own. -/
  | imageOddBytes
  /-- Raised by `State.load`: a snapshot that breaks the engine's invariants. R244: "A load whose state breaks the
  engine's invariants is refused". Safe: it is the spec's own. -/
  | snapshotInvalid
deriving DecidableEq, Repr

/-- What a step of the engine answers. -/
abbrev Result := Host.Outcome State Fault Refusal

/-- The state right after reset with an image of no words, which R241 makes legal; an image is put in by `loadImage`
(R38, R240, R241). -/
def State.reset : State :=
  { regs := Vector.replicate 8 0
    pc := 0
    stack := []
    mem := []
    inbuf := []
    status := .running
    output := []
    params := Config.Params.default }

end Sys2Proof.Machine
end

