-- ==== Sys2Proof/Machine/Ops.lean ====
section
/-! DEFINITION. The named operations over memory, registers, stack, input and output that every meaning is built
from, and the one operation that takes a fault. -/

namespace Sys2Proof.Machine

/-- What an operation raises: the cause, how many of the instruction's argument words the record holds, and the
offending word, address or value (R210). -/
structure Exn where
  cause : Cause
  nargs : Nat
  value : Option Nat
deriving DecidableEq, Repr

/-- A fault of the execute stage: its record holds the whole argument list (R210). -/
def Exn.execute (cause : Cause) (value : Option Nat) : Exn := ⟨cause, Config.maxArity, value⟩

/-! ### Memory -/

/-- The word at an address; an address that is not listed holds 0 (R37). -/
def Memory.get (m : Memory) (a : Nat) : Word :=
  match m with
  | [] => 0
  | (k, v) :: t => if k = a then v else Memory.get t a

/-- The memory with one word changed, in canonical form: writing 0 removes the entry. -/
def Memory.set (m : Memory) (a : Nat) (w : Word) : Memory :=
  match m with
  | [] => if w = 0 then [] else [(a, w)]
  | (k, v) :: t =>
      if a < k then (if w = 0 then (k, v) :: t else (a, w) :: (k, v) :: t)
      else if a = k then (if w = 0 then t else (a, w) :: t)
      else (k, v) :: Memory.set t a w

/-- The canonical form: addresses strictly rising, inside the address space (R50), no entry equal to what an unlisted
address reads as. -/
abbrev Memory.wf (m : Memory) : Prop :=
  m.Pairwise (fun c d => c.1 < d.1) ∧ ∀ c ∈ m, c.1 < Config.memWords ∧ c.2 ≠ 0

/-- The memory that holds a word sequence from address `k` on, and 0 elsewhere (R241). -/
def Memory.ofWordsFrom (k : Nat) (ws : List Word) : Memory :=
  match ws with
  | [] => []
  | w :: t => if w = 0 then Memory.ofWordsFrom (k + 1) t else (k, w) :: Memory.ofWordsFrom (k + 1) t

/-- The word at an address of a state. -/
def State.read (s : State) (a : Nat) : Word := s.mem.get a

/-- `MemRead(addr, 1)` (R64). -/
def memRead (s : State) (addr : Nat) : Except Exn Word :=
  if addr < Config.memWords then .ok (s.read addr) else .error (.execute .addressError (some addr))

/-- `MemWrite(addr, 1, v)` (R64). -/
def memWrite (s : State) (addr : Nat) (w : Word) : Except Exn State :=
  if addr < Config.memWords then .ok { s with mem := s.mem.set addr w }
  else .error (.execute .addressError (some addr))

/-! ### Registers and the program counter -/

/-- `x[r]` (R8, R23). -/
def State.reg (s : State) (r : Reg) : Value := s.regs[r]

/-- `x[r] <- v` (R8, R24). -/
def State.setReg (s : State) (r : Reg) (v : Value) : State := { s with regs := s.regs.set r v }

/-- A number on its way into a register: above 32767 it is a RegisterRange fault (R22, R207). -/
def toRegister (n : Nat) : Except Exn Value :=
  if n ≤ Config.valueMax then .ok (BitVec.ofNat 15 n) else .error (.execute .registerRange (some n))

/-- `pc` past an instruction of `n` words (R27). -/
def State.advance (s : State) (n : Nat) : State := { s with pc := s.pc + BitVec.ofNat 16 n }

/-- `pc <- target` (R8, R110). -/
def State.jump (s : State) (target : Word) : State := { s with pc := target }

/-! ### Stack -/

/-- Whether one more word fits: always, or below the bound (R34, D7). -/
def State.stackHasRoom (s : State) : Bool :=
  match s.params.stackCapacity with
  | none => true
  | some n => decide (s.stack.length < n)

/-- `Push(w)` (R8, R34), StackOverflow when the stack is full (R208). -/
def pushWord (s : State) (w : Word) : Except Exn State :=
  if s.stackHasRoom then .ok { s with stack := w :: s.stack } else .error (.execute .stackOverflow none)

/-- `Pop()` (R8): the top word and the state without it, StackUnderflow when there is none (R35). -/
def popWord (s : State) : Except Exn (Word × State) :=
  match s.stack with
  | [] => .error (.execute .stackUnderflow none)
  | w :: t => .ok (w, { s with stack := t })

/-! ### Status, output -/

/-- `HALT` (R8). -/
def State.halt (s : State) : State := { s with status := .halted }

/-- `Out(v)` (R8, R180). -/
def State.emit (s : State) (v : Value) : State := { s with output := s.output ++ [v] }

/-! ### Taking a fault -/

/-- The cause code (R200, D20). -/
def Cause.code (c : Cause) : Nat :=
  match c with
  | .unknownOpcode => 1
  | .invalidOperand => 2
  | .invalidDestination => 3
  | .stackUnderflow => 4
  | .addressError => 5
  | .arithmeticError => 6
  | .registerRange => 7
  | .stackOverflow => 8

/-- Taking a fault: the status becomes FAULTED with its record, and everything else is as it was at the start of the
step, `pc` among it, so that `faultPc` is `pc` (R85, R210, R211). There is no vector, no saved register and no mode
(R214), and no return from a fault (R215). -/
def State.takeFault (s : State) (cause : Cause) (opcode : Option Word) (args : List Word) (value : Option Nat) : State :=
  { s with status := .faulted ⟨cause, s.pc, opcode, args, value⟩ }

/-- The end of an instruction `i` that began in `s`: it commits every write, or takes its fault from `s`, which
discards them (R85). -/
def finish (i : Instr) (s : State) (r : Except Exn State) : Result :=
  match r with
  | .ok t => .next t
  | .error e => .next (s.takeFault e.cause (some i.opcode) (i.argWords.take e.nargs) e.value)

/-- A word sequence stored from address `a` on; a word past the end of the address space is not stored. -/
def State.placeWords (s : State) (a : Nat) (ws : List Word) : State :=
  match ws with
  | [] => s
  | w :: t => State.placeWords (if a < Config.memWords then { s with mem := s.mem.set a w } else s) (a + 1) t

end Sys2Proof.Machine
end

