-- ==== Sys2Proof/Machine/Operands.lean ====
section
/-! DEFINITION. The two addressing modes and the two roles (R75 to R80), and the shapes of instruction that the
meanings share: arguments resolved from left to right before any effect. -/

namespace Sys2Proof.Machine

/-- Read-role resolution of argument `k` (R76): a literal is itself, a register its value, an invalid word the fault
InvalidOperand, whose record holds the argument words up to this one (R202). -/
def resolve (k : Nat) (o : Operand) (s : State) : Except Exn Value :=
  match o with
  | .lit v => .ok v
  | .reg r => .ok (s.reg r)
  | .invalid w => .error ⟨.invalidOperand, k + 1, some w.toNat⟩

/-- The source's `resolve(w, write)` (R77): the register index, and a literal passed through unchanged. `dest` is what
the engine does with the result. -/
def resolveWrite (o : Operand) : Option Nat :=
  match o with
  | .lit v => some v.toNat
  | .reg r => some r.val
  | .invalid _ => none

/-- Write-role resolution of argument 0 (R77): the register index; a literal names no register and is the fault
InvalidDestination (R203). -/
def dest (o : Operand) : Except Exn Reg :=
  match o with
  | .reg r => .ok r
  | .lit v => .error ⟨.invalidDestination, 1, some v.toNat⟩
  | .invalid w => .error ⟨.invalidOperand, 1, some w.toNat⟩

/-- The argument checks alone, from argument `k` on: what the decoder meets when a later argument cannot be fetched
(R85, R212). -/
def checkArgs (role : Role) (k : Nat) (os : List Operand) (s : State) : Except Exn Unit :=
  match os with
  | [] => .ok ()
  | o :: t => do
      if role = .write ∧ k = 0 then
        let _ ← dest o
      else
        let _ ← resolve k o s
      checkArgs role (k + 1) t s

/-- `x[d] <- v` with `pc` past the instruction (R24, R27). -/
def State.writeBack (s : State) (i : Instr) (d : Reg) (v : Value) : State := (s.setReg d v).advance i.length

/-- Format F2 with role write: `a` is the destination, `f` computes its value from `b`. -/
def writeUnary (i : Instr) (a b : Operand) (s : State) (f : Value → Except Exn Value) : Result :=
  finish i s do
    let d ← dest a
    let vb ← resolve 1 b s
    let v ← f vb
    return s.writeBack i d v

/-- Format F3 with role write: `a` is the destination, `f` computes its value from `b` and `c`. -/
def writeBinary (i : Instr) (a b c : Operand) (s : State) (f : Value → Value → Except Exn Value) : Result :=
  finish i s do
    let d ← dest a
    let vb ← resolve 1 b s
    let vc ← resolve 2 c s
    let v ← f vb vc
    return s.writeBack i d v

/-- Format F1 with role read: `f` is the effect of the value of `a`. -/
def readUnary (i : Instr) (a : Operand) (s : State) (f : Value → Except Exn State) : Result :=
  finish i s do
    let va ← resolve 0 a s
    f va

/-- Format F2 with role read: `f` is the effect of the values of `a` and `b`. -/
def readBinary (i : Instr) (a b : Operand) (s : State) (f : Value → Value → Except Exn State) : Result :=
  finish i s do
    let va ← resolve 0 a s
    let vb ← resolve 1 b s
    f va vb

end Sys2Proof.Machine
end

