-- ==== Sys2Proof/Machine/Arithmetic.lean ====
section
/-! DEFINITION. Arithmetic: add, mult, mod. The exact result is computed on natural numbers and reduced mod 32768
(44_arithmetic.md R153). -/

namespace Sys2Proof.Machine

/-- An exact natural number reduced mod 32768 (R153). -/
def wrap (n : Nat) : Value := BitVec.ofNat 15 (n % 32768)

/-- `add a, b, c`: `x[d] <- (vb + vc) mod 32768` (R150). -/
def execAdd (a b c : Operand) (s : State) : Result :=
  writeBinary (.add a b c) a b c s fun vb vc => .ok (wrap (vb.toNat + vc.toNat))

/-- `mult a, b, c`: `x[d] <- (vb * vc) mod 32768` (R151). -/
def execMult (a b c : Operand) (s : State) : Result :=
  writeBinary (.mult a b c) a b c s fun vb vc => .ok (wrap (vb.toNat * vc.toNat))

/-- `mod a, b, c`: `x[d] <- vb mod vc`, ArithmeticError when the divisor is 0 (R152, R206). -/
def execMod (a b c : Operand) (s : State) : Result :=
  writeBinary (.mod a b c) a b c s fun vb vc =>
    if vc = 0 then .error (.execute .arithmeticError none) else .ok (wrap (vb.toNat % vc.toNat))

end Sys2Proof.Machine
end

