-- ==== Sys2Proof/Machine/Bitwise.lean ====
section
/-! DEFINITION. Bitwise logic: and, or, not (45_bitwise.md). -/

namespace Sys2Proof.Machine

/-- The 15-bit complement, taken over 16 bits and masked (R7, R162). -/
def complement (v : Value) : Value := (~~~v.toWord &&& 0x7FFF#16).setWidth 15

/-- `and a, b, c`: `x[d] <- vb & vc` (R160). -/
def execAnd (a b c : Operand) (s : State) : Result :=
  writeBinary (.and a b c) a b c s fun vb vc => .ok (vb &&& vc)

/-- `or a, b, c`: `x[d] <- vb | vc` (R161). -/
def execOr (a b c : Operand) (s : State) : Result :=
  writeBinary (.or a b c) a b c s fun vb vc => .ok (vb ||| vc)

/-- `not a, b`: `x[d] <- (~vb) & 0x7FFF` (R162). -/
def execNot (a b : Operand) (s : State) : Result :=
  writeUnary (.not a b) a b s fun vb => .ok (complement vb)

end Sys2Proof.Machine
end

