-- ==== Sys2Proof/Machine/CharIO.lean ====
section
/-! DEFINITION. Character input and output: out, in (47_io.md). -/

namespace Sys2Proof.Machine

/-- `out a`: `Out(va)` (R180). -/
def execOut (a : Operand) (s : State) : Result :=
  readUnary (.out a) a s fun va => .ok ((s.emit va).advance (Instr.out a).length)

/-- `in a`: the head of the input buffer into `x[d]`; above 32767 it is RegisterRange and stays in the buffer (R181).
On an empty buffer the step does not happen: no state changes, and the line request is raised (R182, R39). -/
def execIn (a : Operand) (s : State) : Result :=
  finish (.in_ a) s do
    let d ← dest a
    match s.inbuf with
    | [] => return s
    | c :: rest =>
        let v ← toRegister c
        return State.writeBack { s with inbuf := rest } (.in_ a) d v

end Sys2Proof.Machine
end

