-- ==== Sys2Proof/Machine/Flags.lean ====
section
/-! DEFINITION. The engine has no flags (R30): a comparison writes 1 or 0 into a register, and a conditional jump
tests a value against zero. These are the two conversions. -/

namespace Sys2Proof.Machine

/-- The value a comparison writes: 1 or 0 (R30, R140, R141). -/
def truthValue (b : Bool) : Value := if b then 1 else 0

/-- What `jt` and `jf` test: any value but 0 counts as true (R113, R114). -/
def isNonzero (v : Value) : Bool := v != 0

end Sys2Proof.Machine
end

