-- ==== Sys2Proof/Machine/Comparison.lean ====
section
/-! DEFINITION. Comparison: eq, gt, on unsigned 15-bit values (43_comparison.md). -/

namespace Sys2Proof.Machine

/-- `eq a, b, c`: `x[d] <- (1 if vb = vc else 0)` (R140). -/
def execEq (a b c : Operand) (s : State) : Result :=
  writeBinary (.eq a b c) a b c s fun vb vc => .ok (truthValue (vb == vc))

/-- `gt a, b, c`: `x[d] <- (1 if vb > vc else 0)`, strict and unsigned (R141). -/
def execGt (a b c : Operand) (s : State) : Result :=
  writeBinary (.gt a b c) a b c s fun vb vc => .ok (truthValue (decide (vb.toNat > vc.toNat)))

end Sys2Proof.Machine
end

