-- ==== Sys2Proof/Machine/Control.lean ====
section
/-! DEFINITION. Control transfer, halt and noop: halt, jmp, jt, jf, call, ret, noop (41_control.md). Every target is
absolute (R110). -/

namespace Sys2Proof.Machine

/-- `halt`: status HALTED, with `pc` past the opcode word (R111, R87). -/
def execHalt (s : State) : Result :=
  finish .halt s (.ok (s.advance Instr.halt.length).halt)

/-- `jmp a`: `pc <- va` (R112). -/
def execJmp (a : Operand) (s : State) : Result :=
  readUnary (.jmp a) a s fun va => .ok (s.jump va.toWord)

/-- `jt a, b`: `if va != 0: pc <- vb` (R113). -/
def execJt (a b : Operand) (s : State) : Result :=
  readBinary (.jt a b) a b s fun va vb =>
    .ok (if isNonzero va then s.jump vb.toWord else s.advance (Instr.jt a b).length)

/-- `jf a, b`: `if va = 0: pc <- vb` (R114). -/
def execJf (a b : Operand) (s : State) : Result :=
  readBinary (.jf a b) a b s fun va vb =>
    .ok (if isNonzero va then s.advance (Instr.jf a b).length else s.jump vb.toWord)

/-- `call a`: `Push(A + 2); pc <- va` (R115). -/
def execCall (a : Operand) (s : State) : Result :=
  readUnary (.call a) a s fun va => do
    let t ← pushWord s (s.advance (Instr.call a).length).pc
    return t.jump va.toWord

/-- `ret`: `pc <- Pop()`, the popped word taken with no check; on an empty stack what `RET_ON_EMPTY_STACK` says
(R116, C3). -/
def execRet (s : State) : Result :=
  finish .ret s <|
    match popWord s with
    | .ok (w, t) => .ok (t.jump w)
    | .error e =>
        match s.params.retOnEmpty with
        | .halt => .ok (s.advance Instr.ret.length).halt
        | .fault => .error e

/-- `noop`: only `pc` moves (R117). -/
def execNoop (s : State) : Result :=
  finish .noop s (.ok (s.advance Instr.noop.length))

end Sys2Proof.Machine
end

