-- ==== Sys2Proof/Machine/LoadStore.lean ====
section
/-! DEFINITION. Memory load and store: rmem, wmem (46_memory.md). The data address is the resolved argument (R170). -/

namespace Sys2Proof.Machine

/-- `rmem a, b`: `x[d] <- MemRead(vb)`, RegisterRange when the word is above 32767 (R171). -/
def execRmem (a b : Operand) (s : State) : Result :=
  writeUnary (.rmem a b) a b s fun vb => do
    let w ← memRead s vb.toNat
    toRegister w.toNat

/-- `wmem a, b`: `MemWrite(va, vb)` (R172). -/
def execWmem (a b : Operand) (s : State) : Result :=
  readBinary (.wmem a b) a b s fun va vb => do
    let t ← memWrite s va.toNat vb.toWord
    return t.advance (Instr.wmem a b).length

end Sys2Proof.Machine
end

