-- ==== Sys2Proof/Machine/RegisterStack.lean ====
section
/-! DEFINITION. Register move and stack: set, push, pop (42_register_stack.md). -/

namespace Sys2Proof.Machine

/-- `set a, b`: `x[d] <- vb` (R130). -/
def execSet (a b : Operand) (s : State) : Result :=
  writeUnary (.set a b) a b s fun vb => .ok vb

/-- `push a`: `Push(va)` (R131). -/
def execPush (a : Operand) (s : State) : Result :=
  readUnary (.push a) a s fun va => do
    let t ← pushWord s va.toWord
    return t.advance (Instr.push a).length

/-- `pop a`: the top word into `x[d]`; above 32767 it is RegisterRange, and the stack keeps it (R132). -/
def execPop (a : Operand) (s : State) : Result :=
  finish (.pop a) s do
    let d ← dest a
    let (w, t) ← popWord s
    let v ← toRegister w.toNat
    return t.writeBack (.pop a) d v

end Sys2Proof.Machine
end

