-- ==== Sys2Proof/Machine/Fetch.lean ====
section
/-! DEFINITION. Fetching an instruction's words at `pc`, and the faults of the fetch and decode stage (R79, R85, R212). -/

namespace Sys2Proof.Machine

/-- At most `n` words from address `a` on: none at 32768 or above, where a fetch raises AddressError (R29, R58). -/
def wordsFrom (m : Memory) (a n : Nat) : List Word :=
  match n with
  | 0 => []
  | k + 1 => if a < Config.memWords then m.get a :: wordsFrom m (a + 1) k else []

/-- The words an instruction at `pc` can have (R70: at most four). A read has no side effect (R56), so the words the
instruction does not have may be read as well. -/
def State.window (s : State) : List Word := wordsFrom s.mem s.pc.toNat (1 + Config.maxArity)

/-- The fault of a step whose words at `pc` hold no whole instruction, in R212's order: AddressError on the opcode
fetch, UnknownOpcode, then for each argument that could be fetched its own faults, and last AddressError on the first
argument that could not (R201, R205). -/
def State.fetchFault (s : State) (e : DecodeError) : State :=
  match e with
  | .noOpcode => s.takeFault .addressError none [] (some s.pc.toNat)
  | .unknownOpcode op => s.takeFault .unknownOpcode (some op) [] (some op.toNat)
  | .truncated op role args =>
      match checkArgs role 0 (args.map classify) s with
      | .error x => s.takeFault x.cause (some op) (args.take x.nargs) x.value
      | .ok _ => s.takeFault .addressError (some op) args (some (s.pc.toNat + 1 + args.length))

end Sys2Proof.Machine
end

