-- ==== Sys2Proof/Machine/Step.lean ====
section
/-! DEFINITION. One STEP of the engine (R85, R86), and how the host places an instruction where the next step fetches. -/

namespace Sys2Proof.Machine

/-- One STEP (R85). While RUNNING: fetch and decode at `pc`, then the instruction's effect, or the fault of the fetch.
From HALTED and FAULTED no step is taken and no state changes (R32, R86; log 7). -/
def step (s : State) : Host.Outcome State Fault Refusal :=
  match s.status with
  | .running =>
      match decode s.window with
      | .ok (i, _) => exec i s
      | .error e => .next (s.fetchFault e)
  | .halted => .next s
  | .faulted _ => .next s

/-- `s` with the words of a table word stored at `pc`, where the next step fetches, and RUNNING, without which no step
fetches (log 13). -/
def State.withFetchWord (s : State) (nbits w : Nat) : State :=
  State.placeWords { s with status := .running } s.pc.toNat (tableWords nbits w)

end Sys2Proof.Machine
end

