-- ==== Sys2Proof/Machine/Snapshot.lean ====
section
/-! DEFINITION. The snapshot store at the block's boundary: what a save reads and a load writes (R244). -/

namespace Sys2Proof.Machine

/-- The five items a snapshot holds, as natural numbers, so that a snapshot may also hold items that break the
engine's invariants. Its serialized form is not fixed (R244, N30; log 10). -/
structure Snapshot where
  mem : List Nat
  regs : Vector Nat 8
  /-- The top word first. -/
  stack : List Nat
  pc : Nat
  inbuf : List Nat
deriving DecidableEq, Repr

/-- The five items of a state (R244). -/
def State.snapshot (s : State) : Snapshot :=
  { mem := (List.range Config.memWords).map fun a => (s.read a).toNat
    regs := s.regs.map BitVec.toNat
    stack := s.stack.map BitVec.toNat
    pc := s.pc.toNat
    inbuf := s.inbuf }

/-- `save(state)` as the engine does it: "only between steps, while RUNNING" (R244). -/
def State.save (s : State) : Except Fault Snapshot :=
  match s.status with
  | .running => .ok s.snapshot
  | .halted => .error .saveNotRunning
  | .faulted _ => .error .saveNotRunning

/-- The host's snapshot of the state it reads through STATE: while RUNNING, the blocked wait among it, and in HALTED, where
"the host can read it and can snapshot it" (R219). R219 names no other state that stops, so a FAULTED engine has none
(DEDUCED, log 19). -/
def State.hostSnapshot (s : State) : Except Fault Snapshot :=
  match s.status with
  | .running => .ok s.snapshot
  | .halted => .ok s.snapshot
  | .faulted _ => .error .saveNotRunning

/-- A snapshot whose items keep the engine's invariants (R244): registers up to 32767, `pc` up to 32768, memory and stack
words up to 65535, and a memory of 32768 words. -/
def Snapshot.valid (p : Snapshot) : Bool :=
  p.regs.toList.all (fun v => decide (v ≤ 32767)) && decide (p.pc ≤ 32768) &&
    p.stack.all (fun w => decide (w ≤ 65535)) && p.mem.all (fun w => decide (w ≤ 65535)) &&
    decide (p.mem.length = Config.memWords)

/-- `load(bytes)` into a state: all five items and the status RUNNING, or a refusal (R244, D21). What has been sent on
OUT and the parameters stay (log 10). -/
def State.load (s : State) (p : Snapshot) : Result :=
  if p.valid then
    .next { s with
      mem := Memory.ofWordsFrom 0 (p.mem.map (BitVec.ofNat 16))
      regs := p.regs.map (BitVec.ofNat 15)
      stack := p.stack.map (BitVec.ofNat 16)
      pc := BitVec.ofNat 16 p.pc
      inbuf := p.inbuf
      status := .running }
  else .refused .snapshotInvalid

end Sys2Proof.Machine
end

