-- ==== Sys2Proof/Machine/Input.lean ====
section
/-! DEFINITION. The IN interface: the line request (R182), line delivery (R183), and the input provider's reserved `save`
lines (R186). -/

namespace Sys2Proof.Machine

/-- The engine is blocked, and the line request raised: it is RUNNING, its next instruction is `in` with a valid
destination, and the input buffer is empty (R11, R39, R182). -/
def State.lineRequest (s : State) : Bool :=
  match s.status, decode s.window, s.inbuf with
  | .running, .ok (.in_ (.reg _), _), [] => true
  | _, _, _ => false

/-- `inbuf <- L ++ [NEWLINE_CODE]` (R183). -/
def State.primeLine (s : State) (line : List Nat) : State := { s with inbuf := line ++ [Config.newlineCode] }

/-- Line delivery by the host, while the line request is raised (R183, R248). -/
def State.deliverLine (s : State) (line : List Nat) : Result :=
  if s.lineRequest then .next (s.primeLine line) else .fault .lineWithoutRequest

/-- A line split at runs of blanks; `cur` is the word under way, its last code first (R186, D21). DESIGN CHOICE (log 20):
blanks at the start or the end of a line make no empty word, so ` save` is intercepted and `save ` has no path. -/
def splitBlanks (cur : List Nat) : List Nat → List (List Nat)
  | [] => if cur = [] then [] else [cur.reverse]
  | c :: rest =>
      if Config.isBlank c then
        (if cur = [] then splitBlanks [] rest else cur.reverse :: splitBlanks [] rest)
      else splitBlanks (c :: cur) rest

/-- What the input provider does with a line (R186). -/
inductive Provided where
  /-- The line is delivered to the engine (R183). -/
  | delivered (t : State)
  /-- A `save` with no path or with more than one: usage is printed, nothing is delivered, and another line is asked for. -/
  | usage
  /-- `save <path>`: the snapshot to write there, and the state the engine goes on from. -/
  | saved (path : List Nat) (snapshot : Snapshot) (t : State)
deriving DecidableEq, Repr

/-- The input provider on one line, with `SAVE_FOLLOWUP_LINE` as an argument (R6, R186): a first word `save` with exactly
one more word is a save, with none or more than one it is usage, and any other line is delivered (D21). A save primes the
buffer first, then takes the snapshot, then lets the engine go on. -/
def provideLine (followup line : List Nat) (s : State) : Except Fault Provided :=
  if s.lineRequest then
    match splitBlanks [] line with
    | w :: args =>
        if w = Config.saveWord then
          match args with
          | [path] => .ok (.saved path (s.primeLine followup).snapshot (s.primeLine followup))
          | _ => .ok .usage
        else .ok (.delivered (s.primeLine line))
    | [] => .ok (.delivered (s.primeLine line))
  else .error .lineWithoutRequest

end Sys2Proof.Machine
end

