-- ==== Sys2Proof/Machine/Debugger.lean ====
section
/-! DEFINITION. The debugger at the block's boundary: a host wrapper around STEP (R221 to R226). Its two items are host
state, not engine state. -/

namespace Sys2Proof.Machine

/-- The debugger's own state (R221): the single-step flag, and the breakpoint set as a rising list. -/
structure Debugger where
  singleStep : Bool
  breakpoints : List Nat
deriving DecidableEq, Repr

/-- "Starts in single-step mode", with an empty breakpoint set (R221, D22). -/
def Debugger.initial : Debugger := { singleStep := true, breakpoints := [] }

/-- "add if absent, remove if present" (R223), on a rising list. -/
def toggleIn (n : Nat) : List Nat → List Nat
  | [] => [n]
  | b :: rest => if n < b then n :: b :: rest else if n = b then rest else b :: toggleIn n rest

/-- A command (R223). -/
inductive Command where
  | step
  | continue_
  | list
  | toggle (n : Nat)
  | display
  /-- Any other line. -/
  | unknown
deriving DecidableEq, Repr

/-- A decimal number from its digits' codes; `none` when a code is no digit (R223; log 11). -/
def decimal (acc : Nat) : List Nat → Option Nat
  | [] => some acc
  | c :: rest => if 48 ≤ c ∧ c ≤ 57 then decimal (10 * acc + (c - 48)) rest else none

/-- The command of a line: `s`, `c`, `b`, `b <addr>`, `d`, or no command (R223; logs 11 and 20). -/
def parseCommand (line : List Nat) : Command :=
  match splitBlanks [] line with
  | [[115]] => .step
  | [[99]] => .continue_
  | [[98]] => .list
  | [[98], digits] =>
      match decimal 0 digits with
      | some n => .toggle n
      | none => .unknown
  | [[100]] => .display
  | _ => .unknown

/-- What `d` shows (R224). An address outside memory has no word to show, and the source does not say how the window is
clipped, so such a row is `none` (log 12). -/
structure Display where
  pc : Word
  current : Option Word
  window : List (Int × Option Word)
  regs : Vector Value 8
  /-- The top word first. -/
  stack : List Word
deriving DecidableEq, Repr

/-- The word at an address, where there is one. -/
def State.wordAt (s : State) (a : Int) : Option Word :=
  if 0 ≤ a ∧ a < Config.memWords then some (s.read a.toNat) else none

/-- The display, with `DEBUG_WINDOW` as an argument (R6, R224). -/
def State.display (s : State) (halfWidth : Nat) : Display :=
  { pc := s.pc
    current := s.wordAt s.pc.toNat
    window := (List.range (2 * halfWidth + 1)).map fun k =>
      ((s.pc.toNat : Int) - halfWidth + k, s.wordAt ((s.pc.toNat : Int) - halfWidth + k))
    regs := s.regs
    stack := s.stack }

/-- What a command answers. -/
inductive Response where
  /-- `step` and `continue` end the pause. -/
  | resumed
  | listed (breakpoints : List Nat)
  | toggled
  | displayed (d : Display)
  /-- The line is rejected with a re-prompt (R216, R223). -/
  | rejected
deriving DecidableEq, Repr

/-- The effect of one command (R223). -/
def Debugger.command (d : Debugger) (halfWidth : Nat) (s : State) (c : Command) : Debugger × Response :=
  match c with
  | .step => ({ d with singleStep := true }, .resumed)
  | .continue_ => ({ d with singleStep := false }, .resumed)
  | .list => (d, .listed d.breakpoints)
  | .toggle n =>
      if n ≤ 32767 then ({ d with breakpoints := toggleIn n d.breakpoints }, .toggled) else (d, .rejected)
  | .display => (d, .displayed (s.display halfWidth))
  | .unknown => (d, .rejected)

/-- The pause test before an instruction (R222). -/
def Debugger.pauses (d : Debugger) (s : State) : Bool := d.singleStep || d.breakpoints.contains s.pc.toNat

/-- An interactive pause: commands are taken until one resumes (R222). It answers the debugger, the responses, the
commands that are left, and whether it was resumed. -/
def Debugger.pause (d : Debugger) (halfWidth : Nat) (s : State) :
    List Command → Debugger × List Response × List Command × Bool
  | [] => (d, [], [], false)
  | c :: rest =>
      match d.command halfWidth s c with
      | (d', .resumed) => (d', [.resumed], rest, true)
      | (d', r) =>
          let (e, rs, left, go) := Debugger.pause d' halfWidth s rest
          (e, r :: rs, left, go)

/-- What a debugger session has come to. -/
structure Session where
  debugger : Debugger
  responses : List Response
  outcome : Result

/-- One session step: the pause test, at a pause the commands, then the step (R222, R223). It answers the debugger, the
responses, the commands that are left, and what the step answers, or `none` where the commands ran out at a pause.
DESIGN CHOICE (log 18): the pause test is made before every STEP, one that only retries a blocked `in` among them, so one
`in` can take several pauses; R182 says that a blocked step did not happen, and R222 does not say whether its retry pauses
again. -/
def Debugger.advance (d : Debugger) (halfWidth : Nat) (cmds : List Command) (s : State) :
    Debugger × List Response × List Command × Option Result :=
  if d.pauses s then
    match d.pause halfWidth s cmds with
    | (d', rs, left, true) => (d', rs, left, some (step s))
    | (d', rs, left, false) => (d', rs, left, none)
  else (d, [], cmds, some (step s))

/-- At most `n` steps under the debugger. A session ends where its commands run out at a pause, and where the engine is no
longer RUNNING, since then no instruction is left to pause before (R86, R222). -/
def Debugger.run (d : Debugger) (halfWidth : Nat) (cmds : List Command) (s : State) (n : Nat) : Session :=
  match n with
  | 0 => ⟨d, [], .next s⟩
  | k + 1 =>
      match s.status with
      | .running =>
          match d.advance halfWidth cmds s with
          | (d', rs, left, some (.next t)) =>
              let r := Debugger.run d' halfWidth left t k
              ⟨r.debugger, rs ++ r.responses, r.outcome⟩
          | (d', rs, _, some o) => ⟨d', rs, o⟩
          | (d', rs, _, none) => ⟨d', rs, .next s⟩
      | .halted => ⟨d, [], .next s⟩
      | .faulted _ => ⟨d, [], .next s⟩

end Sys2Proof.Machine
end

