-- ==== Sys2Proof/Machine/Disassembler.lean ====
section
/-! DEFINITION. The disassembler at the block's boundary (R90 to R93) and the encoding of its triples (R88). It reads the
memory and changes no state. -/

namespace Sys2Proof.Machine

/-- An argument as it is shown: a number, or a register name (R92). -/
inductive Rendered where
  | number (n : Nat)
  | register (r : Reg)
deriving DecidableEq, Repr

/-- An argument word as it is shown, in either role: a literal and an invalid word as a number, a register reference as
its register (R92). -/
def render (w : Word) : Rendered :=
  match classify w with
  | .lit v => .number v.toNat
  | .reg r => .register r
  | .invalid x => .number x.toNat

/-- The word a shown argument encodes as (R88). DESIGN CHOICE (log 17): a shown number above 32767, which R88 does not
give as an operand and which only an invalid word is shown as, encodes as that raw word, reduced mod 65536. -/
def Rendered.toWord : Rendered → Word
  | .number n => BitVec.ofNat 16 n
  | .register r => BitVec.ofNat 16 (Config.regBase + r.val)

/-- An (address, mnemonic, arguments) triple (R90). -/
structure Triple where
  addr : Nat
  mnemonic : String
  args : List Rendered
deriving DecidableEq, Repr

/-- The triple at an address, and the address of the next one; none where the listing stops, which is before an
instruction that would need a word at 32768 or above (R90, R91). `unknown` is `DISASM_UNKNOWN_MNEMONIC` (R6). -/
def disassembleAt (unknown : String) (m : Memory) (a : Nat) : Option (Triple × Nat) :=
  if a < Config.memWords then
    match opcodeRow (m.get a) with
    | none => some (⟨a, unknown, []⟩, a + 1)
    | some row =>
        if a + row.arity < Config.memWords then
          some (⟨a, row.mnemonic, (List.range row.arity).map fun k => render (m.get (a + 1 + k))⟩, a + 1 + row.arity)
        else none
  else none

/-- At most `n` triples from address `a` on. -/
def disassembleFrom (unknown : String) (m : Memory) (a n : Nat) : List Triple :=
  match n with
  | 0 => []
  | k + 1 =>
      match disassembleAt unknown m a with
      | none => []
      | some (t, next) => t :: disassembleFrom unknown m next k

/-- The listing of the whole memory, from address 0 (R90): no listing has more triples than the memory has words. -/
def disassemble (unknown : String) (m : Memory) : List Triple := disassembleFrom unknown m 0 Config.memWords

/-- The words of a triple, by its mnemonic (R88): none when the mnemonic is no opcode's, or the count of arguments is not
its arity. -/
def assemble (t : Triple) : Option (List Word) :=
  match opcodeMap.find? (fun r => r.mnemonic == t.mnemonic) with
  | none => none
  | some row =>
      if t.args.length = row.arity then some (BitVec.ofNat 16 row.code :: t.args.map Rendered.toWord) else none

end Sys2Proof.Machine
end

