-- ==== Sys2Proof/Machine/Load.lean ====
section
/-! DEFINITION. The LOAD interface: reset with a program image (R240, R241), and the byte order of an image file (R53). -/

namespace Sys2Proof.Machine

/-- Reset with an image: its words from address 0 on, 0 beyond, every other item at its reset value. An image of more
than 32768 words is refused, and no state is built (R241, D15). The parameters are an argument (R6). -/
def loadImage (p : Config.Params) (image : List Word) : Result :=
  if image.length ≤ Config.memWords then
    .next { State.reset with mem := Memory.ofWordsFrom 0 image, params := p }
  else .refused .imageTooLong

/-- Word `k` of a byte image is `B[2k] + 256 * B[2k+1]`; an odd number of bytes gives no words (R53, R241). -/
def wordsOfBytes : List (BitVec 8) → Option (List Word)
  | [] => some []
  | [_] => none
  | lo :: hi :: rest => (wordsOfBytes rest).map (BitVec.ofNat 16 (lo.toNat + 256 * hi.toNat) :: ·)

/-- Reset with an image given as bytes (R53, R241). -/
def loadImageBytes (p : Config.Params) (bytes : List (BitVec 8)) : Result :=
  match wordsOfBytes bytes with
  | some image => loadImage p image
  | none => .refused .imageOddBytes

end Sys2Proof.Machine
end

