-- ==== Sys2Proof/Safety.lean ====
section
/-! DEFINITION. The vocabulary of the claims: what an operand reads as, what an instruction leaves alone, the faults of
the fetch and decode stage, the invariant of the state, and the ends of a run. -/

namespace Sys2Proof.Machine

/-! ### Operands and words -/

/-- The value an operand has in a read position, where it has one (R76). -/
def State.operand (s : State) (o : Operand) : Option Value :=
  match o with
  | .lit v => some v
  | .reg r => some (s.reg r)
  | .invalid _ => none

/-- The opcode word at `pc` (R26). -/
def State.opcodeWord (s : State) : Word := s.read s.pc.toNat

/-- The word of argument `k`, at `A + 1 + k` (R79). -/
def State.argWord (s : State) (k : Nat) : Word := s.read (s.pc.toNat + 1 + k)

/-- The words of the first `n` arguments, in their order (R79, R210). -/
def State.argWordsTo (s : State) (n : Nat) : List Word := (List.range n).map s.argWord

/-- The state with its status FAULTED and nothing else changed (R211). -/
def State.faulted (s : State) (r : FaultRecord) : State := { s with status := .faulted r }

/-- A word that argument `k` accepts (R75, R77, R78). -/
abbrev argLegal (role : Role) (k : Nat) (w : Word) : Prop :=
  w.toNat ≤ 32775 ∧ (role = .write → k = 0 → 32768 ≤ w.toNat)

/-! ### The encoding and the decode faults of one opcode -/

/-- The words of an F0 instruction decode to it (R71). -/
def EncodedF0 (op : Word) (i : Instr) : Prop := ∀ rest, decode (op :: rest) = .ok (i, rest)

/-- The words of an F1 instruction decode to it (R71). -/
def EncodedF1 (op : Word) (mk : Operand → Instr) : Prop :=
  ∀ w1 rest, decode (op :: w1 :: rest) = .ok (mk (classify w1), rest)

/-- The words of an F2 instruction decode to it (R71). -/
def EncodedF2 (op : Word) (mk : Operand → Operand → Instr) : Prop :=
  ∀ w1 w2 rest, decode (op :: w1 :: w2 :: rest) = .ok (mk (classify w1) (classify w2), rest)

/-- The words of an F3 instruction decode to it (R71). -/
def EncodedF3 (op : Word) (mk : Operand → Operand → Operand → Instr) : Prop :=
  ∀ w1 w2 w3 rest,
    decode (op :: w1 :: w2 :: w3 :: rest) = .ok (mk (classify w1) (classify w2) (classify w3), rest)

/-- The faults that fetching and decoding the opcode `op` can raise, in R212's order, each with its record (R202, R203,
R205, R210, R211): AddressError on the opcode fetch, and for each argument `k` whose earlier arguments are legal,
AddressError on its fetch, InvalidOperand, and, for argument 0 of a write role, InvalidDestination. -/
def DecodeFaults (op arity : Nat) (role : Role) : Prop :=
  ∀ s : State, s.status = .running →
    (32768 ≤ s.pc.toNat →
      step s = .next (s.faulted ⟨.addressError, s.pc, none, [], some s.pc.toNat⟩)) ∧
    (s.pc.toNat < 32768 → s.opcodeWord.toNat = op → ∀ k < arity, (∀ j < k, argLegal role j (s.argWord j)) →
      (s.pc.toNat + 1 + k = 32768 →
        step s = .next (s.faulted ⟨.addressError, s.pc, some s.opcodeWord, s.argWordsTo k, some 32768⟩)) ∧
      (s.pc.toNat + 1 + k < 32768 →
        (32776 ≤ (s.argWord k).toNat →
          step s = .next (s.faulted
            ⟨.invalidOperand, s.pc, some s.opcodeWord, s.argWordsTo (k + 1), some (s.argWord k).toNat⟩)) ∧
        (role = .write → k = 0 → (s.argWord k).toNat ≤ 32767 →
          step s = .next (s.faulted
            ⟨.invalidDestination, s.pc, some s.opcodeWord, s.argWordsTo 1, some (s.argWord k).toNat⟩))))

/-! ### Frames: what a step leaves alone -/

/-- Every register keeps its value. -/
def KeepsRegs (s t : State) : Prop := ∀ r, t.reg r = s.reg r

/-- Every register but `d` keeps its value. -/
def KeepsRegsBut (d : Reg) (s t : State) : Prop := ∀ r, r ≠ d → t.reg r = s.reg r

/-- Every word of memory reads as before. -/
def KeepsMem (s t : State) : Prop := ∀ a, t.read a = s.read a

/-- Every word of memory but the one at `x` reads as before. -/
def KeepsMemBut (x : Nat) (s t : State) : Prop := ∀ a, a ≠ x → t.read a = s.read a

/-- Everything but `pc` is as before. -/
def OnlyPc (s t : State) : Prop :=
  KeepsRegs s t ∧ KeepsMem s t ∧ t.stack = s.stack ∧ t.inbuf = s.inbuf ∧ t.status = s.status ∧
    t.output = s.output ∧ t.params = s.params

/-- Everything but `pc` and the status is as before. -/
def OnlyPcStatus (s t : State) : Prop :=
  KeepsRegs s t ∧ KeepsMem s t ∧ t.stack = s.stack ∧ t.inbuf = s.inbuf ∧ t.output = s.output ∧ t.params = s.params

/-- Everything but `pc` and register `d` is as before. -/
def OnlyReg (d : Reg) (s t : State) : Prop :=
  KeepsRegsBut d s t ∧ KeepsMem s t ∧ t.stack = s.stack ∧ t.inbuf = s.inbuf ∧ t.status = s.status ∧
    t.output = s.output ∧ t.params = s.params

/-- Everything but `pc`, register `d` and the stack is as before. -/
def OnlyRegStack (d : Reg) (s t : State) : Prop :=
  KeepsRegsBut d s t ∧ KeepsMem s t ∧ t.inbuf = s.inbuf ∧ t.status = s.status ∧ t.output = s.output ∧
    t.params = s.params

/-- Everything but `pc`, register `d` and the input buffer is as before. -/
def OnlyRegInput (d : Reg) (s t : State) : Prop :=
  KeepsRegsBut d s t ∧ KeepsMem s t ∧ t.stack = s.stack ∧ t.status = s.status ∧ t.output = s.output ∧
    t.params = s.params

/-- Everything but `pc` and the stack is as before. -/
def OnlyStack (s t : State) : Prop :=
  KeepsRegs s t ∧ KeepsMem s t ∧ t.inbuf = s.inbuf ∧ t.status = s.status ∧ t.output = s.output ∧ t.params = s.params

/-- Everything but `pc` and the memory word at `x` is as before. -/
def OnlyWord (x : Nat) (s t : State) : Prop :=
  KeepsRegs s t ∧ KeepsMemBut x s t ∧ t.stack = s.stack ∧ t.inbuf = s.inbuf ∧ t.status = s.status ∧
    t.output = s.output ∧ t.params = s.params

/-- Everything but `pc` and what was sent on OUT is as before. -/
def OnlyOutput (s t : State) : Prop :=
  KeepsRegs s t ∧ KeepsMem s t ∧ t.stack = s.stack ∧ t.inbuf = s.inbuf ∧ t.status = s.status ∧ t.params = s.params

/-! ### The invariant -/

/-- The stack is within its capacity, where it has one (R34, R208). -/
def State.stackWithinCapacity (s : State) : Bool :=
  match s.params.stackCapacity with
  | none => true
  | some n => decide (s.stack.length ≤ n)

/-- What every step keeps: the memory in canonical form, `pc` in [0, 32768] (R26), every stack word in [0, 32768] (R34),
and the stack within its capacity (R208). That a register is in [0, 32767] (R22) is its type. -/
abbrev State.Inv (s : State) : Prop :=
  s.mem.wf ∧ s.pc.toNat ≤ 32768 ∧ s.stack.all (fun w => decide (w.toNat ≤ 32768)) = true ∧
    s.stackWithinCapacity = true

/-! ### The ends of a run (R247) -/

/-- The successful end, the only final state. -/
abbrev State.Final (s : State) : Prop := s.status = .halted

/-- The end by a fault, never a successful one. -/
abbrev State.Faulty (s : State) : Prop := ∃ r, s.status = .faulted r

/-- Stuck unless the host delivers a line: blocked at `in` (R185). -/
abbrev State.Stuck (s : State) : Prop := s.lineRequest = true

end Sys2Proof.Machine
end

