-- ==== Sys2Proof/Certificates/Slice0/Obligations.lean ====
section
/-! DEFINITION. The statements for the provers. Each names the rules of spec/ it formalises.

Some rules rest on a numbered decision of 92_eei_decisions.md, which is the spec's own and not the source's: D3 and D4
(InvalidOperand, InvalidDestination), D5 (RegisterRange), D6 (`ret` on an empty stack), D7 (StackOverflow), D8 (precise
faults and their record), D9 (the order of faults), D15 (refused images), D16 (the reset of `inbuf` and the status). The
statements follow the rules. What is the model's own choice is named with its log. -/

open Sys2Proof Sys2Proof.Machine

/-! ### Reset and load -/

/-- R38, R25: what reset leaves, for every image that fits, with any parameters. `State.reset` is the reset with an image
of no words and the default parameters. Its first clause holds of every field, so also of the two that are the model's own,
`params` (log 2) and `output` (log 3, DESIGN CHOICE both); that `State.reset` has the image of no words is log 13. The
second clause is the reset table and says nothing of them. -/
def Obligations.ResetFromImage : Prop :=
  loadImage Config.Params.default [] = .next State.reset ∧
  ∀ (p : Config.Params) (image : List Word), image.length ≤ 32768 →
    ∃ s, loadImage p image = .next s ∧ (∀ r, s.reg r = 0) ∧ s.pc = 0 ∧ s.stack = [] ∧
      (∀ k w, image[k]? = some w → s.read k = w) ∧ (∀ k, image.length ≤ k → s.read k = 0) ∧
      s.inbuf = [] ∧ s.status = .running

/-- R53, R241: the words of a byte image, an odd one and one that is too long refused, and the image of no words. -/
def Obligations.ByteImageLoad : Prop :=
  (∀ bytes : List (BitVec 8), bytes.length % 2 = 1 → wordsOfBytes bytes = none) ∧
  (∀ (p : Config.Params) (bytes : List (BitVec 8)), bytes.length % 2 = 1 →
    loadImageBytes p bytes = .refused .imageOddBytes) ∧
  (∀ (p : Config.Params) (image : List Word), 32768 < image.length → loadImage p image = .refused .imageTooLong) ∧
  (∀ (p : Config.Params) (bytes : List (BitVec 8)), bytes.length % 2 = 0 →
    ∃ image, wordsOfBytes bytes = some image ∧ 2 * image.length = bytes.length ∧
      loadImageBytes p bytes = loadImage p image ∧
      ∀ k lo hi, bytes[2 * k]? = some lo → bytes[2 * k + 1]? = some hi →
        ∃ w, image[k]? = some w ∧ w.toNat = lo.toNat + 256 * hi.toNat) ∧
  (∀ p : Config.Params, ∃ s t, loadImage p [] = .next s ∧ step s = .next t ∧ t.status = .halted ∧ t.pc = 1)

/-! ### Decoding -/

/-- R75: the three classes of an argument word. -/
def Obligations.ArgumentWordClasses : Prop :=
  ∀ w : Word,
    (w.toNat ≤ 32767 → ∃ v : Value, classify w = .lit v ∧ v.toNat = w.toNat) ∧
    (32768 ≤ w.toNat → w.toNat ≤ 32775 → ∃ r : Reg, classify w = .reg r ∧ r.val = w.toNat - 32768) ∧
    (32776 ≤ w.toNat → classify w = .invalid w)

/-- R76, R77: the read-role and the write-role resolution of any argument word, as argument `k`. -/
def Obligations.OperandResolution : Prop :=
  ∀ (w : Word) (k : Nat) (s : State),
    (w.toNat ≤ 32767 →
      (∃ v, resolve k (classify w) s = .ok v ∧ v.toNat = w.toNat) ∧
      resolveWrite (classify w) = some w.toNat ∧
      dest (classify w) = .error ⟨.invalidDestination, 1, some w.toNat⟩) ∧
    (∀ r : Reg, w.toNat = 32768 + r.val →
      resolve k (classify w) s = .ok (s.reg r) ∧ resolveWrite (classify w) = some r.val ∧
      dest (classify w) = .ok r) ∧
    (32776 ≤ w.toNat →
      resolve k (classify w) s = .error ⟨.invalidOperand, k + 1, some w.toNat⟩ ∧
      resolveWrite (classify w) = none ∧
      dest (classify w) = .error ⟨.invalidOperand, 1, some w.toNat⟩)

/-- R71, R73: words written out from the encoding tables, at least one of each family, and what they decode to. -/
def Obligations.SampleWordsDecode : Prop :=
  decode [0#16] = .ok (.halt, []) ∧
  decode [7#16, 32771#16, 20#16] = .ok (.jt (.reg 3) (.lit 20), []) ∧
  decode [1#16, 32768#16, 4#16] = .ok (.set (.reg 0) (.lit 4), []) ∧
  decode [4#16, 32775#16, 32767#16, 32769#16] = .ok (.eq (.reg 7) (.lit 32767) (.reg 1), []) ∧
  decode [11#16, 32768#16, 7#16, 0#16] = .ok (.mod (.reg 0) (.lit 7) (.lit 0), []) ∧
  decode [14#16, 32772#16, 232#16] = .ok (.not (.reg 4) (.lit 232), []) ∧
  decode [16#16, 100#16, 32769#16, 18#16] = .ok (.wmem (.lit 100) (.reg 1), [18#16]) ∧
  decode [20#16, 40000#16] = .ok (.in_ (.invalid 40000), []) ∧
  decode [22#16] = .error (.unknownOpcode 22)

/-- R83, R88, R93: encoding a well-formed instruction and decoding its words gives it back, with the words after it. -/
def Obligations.DecodeEncodeRoundTrip : Prop :=
  ∀ (i : Instr) (rest : List Word), i.wellFormed = true → decode (encode i ++ rest) = .ok (i, rest)

/-- R83, R84, R93: what decodes is an opcode word in [0, 21] with its arity's number of argument words, and encoding the
instruction gives back exactly those words. A sequence with an argument word outside its legal class, which R83 calls illegal
and for which R93 promises no round trip, is among them: that it decodes, its operand keeping the word, is the model's own
(log 14, DEDUCED). -/
def Obligations.EncodeDecodeRoundTrip : Prop :=
  ∀ (ws : List Word) (i : Instr) (rest : List Word), decode ws = .ok (i, rest) →
    encode i ++ rest = ws ∧ (encode i).length = i.length ∧
      ∃ row ∈ opcodeMap, i.opcode.toNat = row.code ∧ i.length = 1 + row.arity

/-- R72, R82, R201: an opcode word outside [0, 21] is UnknownOpcode, before any argument is fetched. -/
def Obligations.UnknownOpcodeFaults : Prop :=
  ∀ s : State, s.status = .running → s.pc.toNat < 32768 → 22 ≤ s.opcodeWord.toNat →
    step s = .next (s.faulted ⟨.unknownOpcode, s.pc, some s.opcodeWord, [], some s.opcodeWord.toNat⟩)

/-- R202, R203, R205, R79, R81: the faults of fetching and decoding, for every opcode of the map. -/
def Obligations.DecodeFaultsOfEveryOpcode : Prop :=
  ∀ row ∈ opcodeMap, DecodeFaults row.code row.arity row.role

/-- R81, R83, R77 at `exec`: an instruction with an argument outside its legal class only faults, with InvalidOperand, or
with InvalidDestination when argument 0 is a literal of a write role, and changes nothing else. -/
def Obligations.IllegalArgumentsFault : Prop :=
  ∀ (i : Instr) (s : State), i.wellFormed = false →
    ∃ r, exec i s = .next (s.faulted r) ∧ r.faultPc = s.pc ∧ r.opcode = some i.opcode ∧
      (r.cause = .invalidOperand ∨
        (r.cause = .invalidDestination ∧ ∃ v, i.args.head? = some (.lit v) ∧ r.value = some v.toNat))

/-! ### The step -/

/-- R85: when the words at `pc` decode to an instruction, a step of a RUNNING engine is that instruction's `exec` at
that state, and the step adds nothing around it. -/
def Obligations.StepRunsDecodedInstruction : Prop :=
  ∀ (s : State) (i : Instr) (rest : List Word), s.status = .running → decode s.window = .ok (i, rest) →
    step s = exec i s

/-- R60, R79, R85: a RUNNING engine whose memory holds, from `pc` on, the words of a well-formed instruction runs that
instruction. -/
def Obligations.StepRunsWordsAtPc : Prop :=
  ∀ (s : State) (i : Instr), s.status = .running → i.wellFormed = true →
    (∀ k w, (encode i)[k]? = some w → s.pc.toNat + k < 32768 ∧ s.read (s.pc.toNat + k) = w) →
      step s = exec i s

/-- R200, R213, R214: every step of the engine answers a next state; a fault of the engine is one too. -/
def Obligations.StepAlwaysAnswersNext : Prop := ∀ s : State, ∃ t, step s = .next t

/-- R211, and of R210 the address, the opcode and the argument words: a step that faults changes nothing but the status,
its record names the address of the instruction, and no step follows (log 7). -/
def Obligations.FaultsArePrecise : Prop :=
  ∀ s t : State, s.status = .running → step s = .next t → ∀ r, t.status = .faulted r →
    t = s.faulted r ∧ r.faultPc = s.pc ∧ t.pc = r.faultPc ∧ step t = .next t ∧
      (∀ op, r.opcode = some op → op = s.opcodeWord) ∧ r.args = s.argWordsTo r.args.length

/-- R200, D20: the codes of the eight causes. -/
def Obligations.FaultCauseCodes : Prop :=
  [Cause.unknownOpcode, .invalidOperand, .invalidDestination, .stackUnderflow, .addressError, .arithmeticError,
    .registerRange, .stackOverflow].map Cause.code = [1, 2, 3, 4, 5, 6, 7, 8] ∧
  ∀ c e : Cause, c.code = e.code → c = e

/-- R200 to R208, R58: for each of the eight causes, the opcodes that can raise it and the condition under which they do:
the word, the stack, the divisor or the value that the fault is about.
AddressError comes from a fetch at 32768 or above only: of the opcode word where the record has no opcode, of the
next argument word where it has one. -/
def Obligations.FaultCausesByOpcode : Prop :=
  ∀ s t : State, s.status = .running → step s = .next t → ∀ r, t.status = .faulted r →
    (r.cause = .unknownOpcode → 22 ≤ s.opcodeWord.toNat) ∧
    (r.cause = .invalidOperand → s.opcodeWord.toNat ≤ 21 ∧ s.opcodeWord.toNat ∉ [0, 18, 21] ∧
      ∃ k < 3, 32776 ≤ (s.argWord k).toNat ∧ r.value = some (s.argWord k).toNat) ∧
    (r.cause = .invalidDestination →
      s.opcodeWord.toNat ∈ [1, 3, 4, 5, 9, 10, 11, 12, 13, 14, 15, 20] ∧ (s.argWord 0).toNat ≤ 32767) ∧
    (r.cause = .stackUnderflow → s.stack = [] ∧
      (s.opcodeWord.toNat = 3 ∨ (s.opcodeWord.toNat = 18 ∧ s.params.retOnEmpty = .fault))) ∧
    (r.cause = .addressError →
      (r.opcode = none → 32768 ≤ s.pc.toNat) ∧ (r.opcode ≠ none → 32768 ≤ s.pc.toNat + 1 + r.args.length)) ∧
    (r.cause = .arithmeticError → s.opcodeWord.toNat = 11 ∧ s.operand (classify (s.argWord 2)) = some 0) ∧
    (r.cause = .registerRange → ∃ n, r.value = some n ∧ 32768 ≤ n ∧
      ((s.opcodeWord.toNat = 3 ∧ ∃ w, s.stack.head? = some w ∧ w.toNat = n) ∨
        (s.opcodeWord.toNat = 15 ∧ ∃ a, s.operand (classify (s.argWord 1)) = some a ∧ (s.read a.toNat).toNat = n) ∨
          (s.opcodeWord.toNat = 20 ∧ s.inbuf.head? = some n))) ∧
    (r.cause = .stackOverflow →
      s.opcodeWord.toNat ∈ [2, 17] ∧ ∃ n, s.params.stackCapacity = some n ∧ n ≤ s.stack.length)

/-- R32, R86: HALTED and FAULTED are terminal, and HALTED comes from `halt`, or from `ret` on an empty stack under
`RET_ON_EMPTY_STACK = halt`, only. That "no step" is `step` answering the same state is log 7. -/
def Obligations.TerminalStatesAndWhoHalts : Prop :=
  (∀ s : State, (s.status = .halted ∨ ∃ r, s.status = .faulted r) → step s = .next s) ∧
  ∀ s t : State, s.status = .running → step s = .next t → t.status = .halted →
    s.opcodeWord.toNat = 0 ∨ (s.opcodeWord.toNat = 18 ∧ s.stack = [] ∧ s.params.retOnEmpty = .halt)

/-- R24: a register changes only by a write-role opcode, and it is the one argument 0 names. -/
def Obligations.RegistersWrittenByArgumentZero : Prop :=
  ∀ s t : State, step s = .next t → ∀ r : Reg, t.reg r ≠ s.reg r →
    s.opcodeWord.toNat ∈ [1, 3, 4, 5, 9, 10, 11, 12, 13, 14, 15, 20] ∧ (s.argWord 0).toNat = 32768 + r.val

/-- R59, R172: memory changes only by `wmem`, at its resolved argument 0, and what it stores is in [0, 32767]. -/
def Obligations.MemoryWrittenByWmemOnly : Prop :=
  ∀ s t : State, s.mem.wf → step s = .next t → ∀ a, t.read a ≠ s.read a →
    s.opcodeWord.toNat = 16 ∧ (∃ va, s.operand (classify (s.argWord 0)) = some va ∧ a = va.toNat) ∧
      (t.read a).toNat ≤ 32767

/-- R34: the stack changes only by `push` and `call`, which put one word on top, and by `pop` and `ret`, which take the
top word. -/
def Obligations.StackTouchedByFourOpcodes : Prop :=
  ∀ s t : State, step s = .next t → t.stack ≠ s.stack →
    (s.opcodeWord.toNat ∈ [2, 17] ∧ ∃ w, t.stack = w :: s.stack) ∨
      (s.opcodeWord.toNat ∈ [3, 18] ∧ ∃ w, s.stack = w :: t.stack)

/-- R36, R181: within a step the input buffer changes only by `in`, which takes one code from its front. -/
def Obligations.InputConsumedByInOnly : Prop :=
  ∀ s t : State, step s = .next t → t.inbuf ≠ s.inbuf →
    s.opcodeWord.toNat = 20 ∧ ∃ c, s.inbuf = c :: t.inbuf ∧ c ≤ 32767

/-- R180, R187: the OUT interface gets a value only by `out`, its resolved argument, after every earlier one. -/
def Obligations.OutputProducedByOutOnly : Prop :=
  ∀ s t : State, step s = .next t → t.output ≠ s.output →
    s.opcodeWord.toNat = 19 ∧ ∃ v, s.operand (classify (s.argWord 0)) = some v ∧ t.output = s.output ++ [v]

/-- R27: an instruction that does not transfer control, and neither faults nor halts nor is blocked, leaves `pc` at
`A + 1 + arity`. -/
def Obligations.SequentialPcAdvance : Prop :=
  ∀ (s t : State) (i : Instr) (rest : List Word), s.status = .running → decode s.window = .ok (i, rest) →
    i.opcode.toNat ∉ [6, 7, 8, 17, 18] → s.lineRequest = false → step s = .next t → t.status = .running →
      t.pc.toNat = s.pc.toNat + 1 + i.args.length

/-- R40: the five items of a snapshot, and the parameters, determine what a step does. What was sent on OUT before, which
the model records in a field of its own (log 3), has no effect on it. -/
def Obligations.EarlierOutputHasNoEffect : Prop :=
  ∀ (s t : State) (earlier : List Value), step s = .next t →
    step { s with output := earlier ++ s.output } = .next { t with output := earlier ++ t.output }

/-! ### The invariant -/

/-- The state after reset meets the invariant. -/
def Obligations.ResetMeetsInvariant : Prop := State.reset.Inv

/-- R26, R34, R208: every step keeps the invariant, and leaves the parameters alone. -/
def Obligations.StepKeepsInvariant : Prop :=
  ∀ s t : State, s.Inv → step s = .next t → t.Inv ∧ t.params = s.params

/-- R241: the state that a load of any image builds meets the invariant. -/
def Obligations.LoadMeetsInvariant : Prop :=
  ∀ (p : Config.Params) (image : List Word) (s : State), loadImage p image = .next s → s.Inv

/-! ### Memory -/

/-- R64: the two memory primitives, at any address. The canonical form of the memory, which is the premise and which a write
keeps, is the model's own (log 1, DESIGN CHOICE). -/
def Obligations.MemoryPrimitives : Prop :=
  ∀ (s : State) (a : Nat) (w : Word), s.mem.wf →
    (32768 ≤ a →
      memRead s a = .error ⟨.addressError, 3, some a⟩ ∧ memWrite s a w = .error ⟨.addressError, 3, some a⟩) ∧
    (a < 32768 → memRead s a = .ok (s.read a) ∧
      ∃ t, memWrite s a w = .ok t ∧ t.mem.wf ∧ t.read a = w ∧ KeepsMemBut a s t ∧ t = { s with mem := t.mem })

/-- R62: a word that `wmem` stores is what every later fetch of that address gets, and a fetch of another address gets
what it got before, the words of the storing instruction itself among them. -/
def Obligations.StoreSeenByNextFetch : Prop :=
  ∀ (s t : State) (a b : Operand) (va vb : Value) (rest : List Word), s.mem.wf → s.status = .running →
    decode s.window = .ok (.wmem a b, rest) → s.operand a = some va → s.operand b = some vb → step s = .next t →
      ∀ p n k w, (wordsFrom t.mem p n)[k]? = some w →
        (p + k = va.toNat → w.toNat = vb.toNat) ∧ (p + k ≠ va.toNat → (wordsFrom s.mem p n)[k]? = some w)

/-! ### Control transfer, halt and noop -/

/-- R111. That no step is taken from HALTED is `step` answering the same state (log 7). -/
def Obligations.HaltStopsEngine : Prop :=
  EncodedF0 0 .halt ∧ DecodeFaults 0 0 .none ∧
  ∀ s : State, ∃ t, exec .halt s = .next t ∧ t.status = .halted ∧ t.pc = s.pc + 1 ∧ OnlyPcStatus s t ∧ step t = .next t

/-- R112. -/
def Obligations.JmpGoesToTarget : Prop :=
  EncodedF1 6 .jmp ∧ DecodeFaults 6 1 .read ∧
  ∀ (s : State) (a : Operand) (va : Value), s.operand a = some va →
    ∃ t, exec (.jmp a) s = .next t ∧ t.pc.toNat = va.toNat ∧ OnlyPc s t

/-- R113. -/
def Obligations.JtJumpsWhenNonzero : Prop :=
  EncodedF2 7 .jt ∧ DecodeFaults 7 2 .read ∧
  ∀ (s : State) (a b : Operand) (va vb : Value), s.operand a = some va → s.operand b = some vb →
    ∃ t, exec (.jt a b) s = .next t ∧ OnlyPc s t ∧
      (va.toNat ≠ 0 → t.pc.toNat = vb.toNat) ∧ (va.toNat = 0 → t.pc = s.pc + 3)

/-- R114. -/
def Obligations.JfJumpsWhenZero : Prop :=
  EncodedF2 8 .jf ∧ DecodeFaults 8 2 .read ∧
  ∀ (s : State) (a b : Operand) (va vb : Value), s.operand a = some va → s.operand b = some vb →
    ∃ t, exec (.jf a b) s = .next t ∧ OnlyPc s t ∧
      (va.toNat = 0 → t.pc.toNat = vb.toNat) ∧ (va.toNat ≠ 0 → t.pc = s.pc + 3)

/-- R115. -/
def Obligations.CallPushesReturnAddress : Prop :=
  EncodedF1 17 .call ∧ DecodeFaults 17 1 .read ∧
  (∀ (s : State) (a : Operand) (va : Value), s.operand a = some va →
    (∀ n, s.params.stackCapacity = some n → s.stack.length < n) →
      ∃ t, exec (.call a) s = .next t ∧ t.stack = (s.pc + 2) :: s.stack ∧ t.pc.toNat = va.toNat ∧ OnlyStack s t) ∧
  (∀ (s : State) (a : Operand) (va : Value), s.operand a = some va → s.params.stackCapacity = some s.stack.length →
    exec (.call a) s = .next (s.faulted ⟨.stackOverflow, s.pc, some 17, [a.toWord], none⟩))

/-- R116. -/
def Obligations.RetPopsOrEnds : Prop :=
  EncodedF0 18 .ret ∧ DecodeFaults 18 0 .none ∧
  (∀ (s : State) (w : Word) (rest : List Word), s.stack = w :: rest →
    ∃ t, exec .ret s = .next t ∧ t.pc = w ∧ t.stack = rest ∧ OnlyStack s t) ∧
  (∀ s : State, s.stack = [] → s.params.retOnEmpty = .halt →
    ∃ t, exec .ret s = .next t ∧ t.status = .halted ∧ t.pc = s.pc + 1 ∧ OnlyPcStatus s t) ∧
  (∀ s : State, s.stack = [] → s.params.retOnEmpty = .fault →
    exec .ret s = .next (s.faulted ⟨.stackUnderflow, s.pc, some 18, [], none⟩))

/-- R117. -/
def Obligations.NoopOnlyAdvances : Prop :=
  EncodedF0 21 .noop ∧ DecodeFaults 21 0 .none ∧
  ∀ s : State, ∃ t, exec .noop s = .next t ∧ t.pc = s.pc + 1 ∧ OnlyPc s t

/-! ### Register move and stack -/

/-- R130. -/
def Obligations.SetCopiesValue : Prop :=
  EncodedF2 1 .set ∧ DecodeFaults 1 2 .write ∧
  ∀ (s : State) (d : Reg) (b : Operand) (vb : Value), s.operand b = some vb →
    ∃ t, exec (.set (.reg d) b) s = .next t ∧ t.reg d = vb ∧ t.pc = s.pc + 3 ∧ OnlyReg d s t

/-- R131. -/
def Obligations.PushPutsValueOnTop : Prop :=
  EncodedF1 2 .push ∧ DecodeFaults 2 1 .read ∧
  (∀ (s : State) (a : Operand) (va : Value), s.operand a = some va →
    (∀ n, s.params.stackCapacity = some n → s.stack.length < n) →
      ∃ t w, exec (.push a) s = .next t ∧ t.stack = w :: s.stack ∧ w.toNat = va.toNat ∧ t.pc = s.pc + 2 ∧
        OnlyStack s t) ∧
  (∀ (s : State) (a : Operand) (va : Value), s.operand a = some va → s.params.stackCapacity = some s.stack.length →
    exec (.push a) s = .next (s.faulted ⟨.stackOverflow, s.pc, some 2, [a.toWord], none⟩))

/-- R132. -/
def Obligations.PopTakesTopWord : Prop :=
  EncodedF1 3 .pop ∧ DecodeFaults 3 1 .write ∧
  (∀ (s : State) (d : Reg) (w : Word) (rest : List Word), s.stack = w :: rest → w.toNat ≤ 32767 →
    ∃ t, exec (.pop (.reg d)) s = .next t ∧ (t.reg d).toNat = w.toNat ∧ t.stack = rest ∧ t.pc = s.pc + 2 ∧
      OnlyRegStack d s t) ∧
  (∀ (s : State) (d : Reg), s.stack = [] →
    exec (.pop (.reg d)) s =
      .next (s.faulted ⟨.stackUnderflow, s.pc, some 3, [(Operand.reg d).toWord], none⟩)) ∧
  (∀ (s : State) (d : Reg) (w : Word) (rest : List Word), s.stack = w :: rest → 32768 ≤ w.toNat →
    exec (.pop (.reg d)) s =
      .next (s.faulted ⟨.registerRange, s.pc, some 3, [(Operand.reg d).toWord], some w.toNat⟩))

/-! ### Comparison -/

/-- R140. -/
def Obligations.EqWritesOneOrZero : Prop :=
  EncodedF3 4 .eq ∧ DecodeFaults 4 3 .write ∧
  ∀ (s : State) (d : Reg) (b c : Operand) (vb vc : Value), s.operand b = some vb → s.operand c = some vc →
    ∃ t, exec (.eq (.reg d) b c) s = .next t ∧ (t.reg d).toNat = (if vb.toNat = vc.toNat then 1 else 0) ∧
      t.pc = s.pc + 4 ∧ OnlyReg d s t

/-- R141. -/
def Obligations.GtComparesUnsigned : Prop :=
  EncodedF3 5 .gt ∧ DecodeFaults 5 3 .write ∧
  ∀ (s : State) (d : Reg) (b c : Operand) (vb vc : Value), s.operand b = some vb → s.operand c = some vc →
    ∃ t, exec (.gt (.reg d) b c) s = .next t ∧ (t.reg d).toNat = (if vb.toNat > vc.toNat then 1 else 0) ∧
      t.pc = s.pc + 4 ∧ OnlyReg d s t

/-! ### Arithmetic -/

/-- R150. -/
def Obligations.AddModulo32768 : Prop :=
  EncodedF3 9 .add ∧ DecodeFaults 9 3 .write ∧
  ∀ (s : State) (d : Reg) (b c : Operand) (vb vc : Value), s.operand b = some vb → s.operand c = some vc →
    ∃ t, exec (.add (.reg d) b c) s = .next t ∧ (t.reg d).toNat = (vb.toNat + vc.toNat) % 32768 ∧
      t.pc = s.pc + 4 ∧ OnlyReg d s t

/-- R151. -/
def Obligations.MultModulo32768 : Prop :=
  EncodedF3 10 .mult ∧ DecodeFaults 10 3 .write ∧
  ∀ (s : State) (d : Reg) (b c : Operand) (vb vc : Value), s.operand b = some vb → s.operand c = some vc →
    ∃ t, exec (.mult (.reg d) b c) s = .next t ∧ (t.reg d).toNat = (vb.toNat * vc.toNat) % 32768 ∧
      t.pc = s.pc + 4 ∧ OnlyReg d s t

/-- R152. -/
def Obligations.ModOrArithmeticError : Prop :=
  EncodedF3 11 .mod ∧ DecodeFaults 11 3 .write ∧
  (∀ (s : State) (d : Reg) (b c : Operand) (vb vc : Value), s.operand b = some vb → s.operand c = some vc →
    vc.toNat ≠ 0 →
      ∃ t, exec (.mod (.reg d) b c) s = .next t ∧ (t.reg d).toNat = vb.toNat % vc.toNat ∧ t.pc = s.pc + 4 ∧
        OnlyReg d s t) ∧
  (∀ (s : State) (d : Reg) (b c : Operand) (vb vc : Value), s.operand b = some vb → s.operand c = some vc →
    vc.toNat = 0 →
      exec (.mod (.reg d) b c) s = .next (s.faulted
        ⟨.arithmeticError, s.pc, some 11, [(Operand.reg d).toWord, b.toWord, c.toWord], none⟩))

/-! ### Bitwise logic -/

/-- R160. -/
def Obligations.AndOfBits : Prop :=
  EncodedF3 12 .and ∧ DecodeFaults 12 3 .write ∧
  ∀ (s : State) (d : Reg) (b c : Operand) (vb vc : Value), s.operand b = some vb → s.operand c = some vc →
    ∃ t, exec (.and (.reg d) b c) s = .next t ∧ (∀ k, (t.reg d).getLsbD k = (vb.getLsbD k && vc.getLsbD k)) ∧
      t.pc = s.pc + 4 ∧ OnlyReg d s t

/-- R161. -/
def Obligations.OrOfBits : Prop :=
  EncodedF3 13 .or ∧ DecodeFaults 13 3 .write ∧
  ∀ (s : State) (d : Reg) (b c : Operand) (vb vc : Value), s.operand b = some vb → s.operand c = some vc →
    ∃ t, exec (.or (.reg d) b c) s = .next t ∧ (∀ k, (t.reg d).getLsbD k = (vb.getLsbD k || vc.getLsbD k)) ∧
      t.pc = s.pc + 4 ∧ OnlyReg d s t

/-- R162. -/
def Obligations.NotIsFifteenBitComplement : Prop :=
  EncodedF2 14 .not ∧ DecodeFaults 14 2 .write ∧
  ∀ (s : State) (d : Reg) (b : Operand) (vb : Value), s.operand b = some vb →
    ∃ t, exec (.not (.reg d) b) s = .next t ∧ (t.reg d).toNat = 32767 - vb.toNat ∧
      (∀ k < 15, (t.reg d).getLsbD k = !vb.getLsbD k) ∧ t.pc = s.pc + 3 ∧ OnlyReg d s t

/-! ### Memory load and store -/

/-- R171, R170. -/
def Obligations.RmemLoadsWord : Prop :=
  EncodedF2 15 .rmem ∧ DecodeFaults 15 2 .write ∧
  (∀ (s : State) (d : Reg) (b : Operand) (vb : Value), s.operand b = some vb → (s.read vb.toNat).toNat ≤ 32767 →
    ∃ t, exec (.rmem (.reg d) b) s = .next t ∧ (t.reg d).toNat = (s.read vb.toNat).toNat ∧ t.pc = s.pc + 3 ∧
      OnlyReg d s t) ∧
  (∀ (s : State) (d : Reg) (b : Operand) (vb : Value), s.operand b = some vb → 32768 ≤ (s.read vb.toNat).toNat →
    exec (.rmem (.reg d) b) s = .next (s.faulted
      ⟨.registerRange, s.pc, some 15, [(Operand.reg d).toWord, b.toWord], some (s.read vb.toNat).toNat⟩))

/-- R172, R170. The word stored to is the one at the value of argument 0. That it reads as the value stored rests on the
canonical form of the memory (log 1), which `StepKeepsInvariant` states of every step. -/
def Obligations.WmemStoresWord : Prop :=
  EncodedF2 16 .wmem ∧ DecodeFaults 16 2 .read ∧
  ∀ (s : State) (a b : Operand) (va vb : Value), s.operand a = some va → s.operand b = some vb →
    ∃ t, exec (.wmem a b) s = .next t ∧ (s.mem.wf → (t.read va.toNat).toNat = vb.toNat) ∧ t.pc = s.pc + 3 ∧
      OnlyWord va.toNat s t

/-! ### Character input and output -/

/-- R180. -/
def Obligations.OutEmitsValue : Prop :=
  EncodedF1 19 .out ∧ DecodeFaults 19 1 .read ∧
  ∀ (s : State) (a : Operand) (va : Value), s.operand a = some va →
    ∃ t, exec (.out a) s = .next t ∧ t.output = s.output ++ [va] ∧ t.pc = s.pc + 2 ∧ OnlyOutput s t

/-- R181. That a blocked engine takes no step is `exec` answering the same state (log 7). -/
def Obligations.InTakesOneCode : Prop :=
  EncodedF1 20 .in_ ∧ DecodeFaults 20 1 .write ∧
  (∀ (s : State) (d : Reg) (c : Nat) (rest : List Nat), s.inbuf = c :: rest → c ≤ 32767 →
    ∃ t, exec (.in_ (.reg d)) s = .next t ∧ (t.reg d).toNat = c ∧ t.inbuf = rest ∧ t.pc = s.pc + 2 ∧
      OnlyRegInput d s t) ∧
  (∀ (s : State) (d : Reg) (c : Nat) (rest : List Nat), s.inbuf = c :: rest → 32768 ≤ c →
    exec (.in_ (.reg d)) s =
      .next (s.faulted ⟨.registerRange, s.pc, some 20, [(Operand.reg d).toWord], some c⟩)) ∧
  (∀ (s : State) (d : Reg), s.inbuf = [] → exec (.in_ (.reg d)) s = .next s)

/-- R182, R183, R39: when the line request is raised; a blocked engine stays as it is until a line comes, a delivery without a request stops, and a delivered
line lets the same `in` complete with its first code. That the line's end is code 10 is the model's choice (log 5, PRESUMED). -/
def Obligations.BlockedInWaitsForLine : Prop :=
  (∀ s : State, s.lineRequest = true ↔
    s.status = .running ∧ s.inbuf = [] ∧ ∃ d rest, decode s.window = .ok (.in_ (.reg d), rest)) ∧
  (∀ s : State, s.lineRequest = true →
    step s = .next s ∧ ∀ line, s.deliverLine line = .next { s with inbuf := line ++ [10] }) ∧
  (∀ (s : State) (line : List Nat), s.lineRequest = false → s.deliverLine line = .fault .lineWithoutRequest) ∧
  (∀ (s t : State) (line : List Nat) (c : Nat) (rest : List Nat), s.deliverLine line = .next t →
    line ++ [10] = c :: rest → c ≤ 32767 →
      ∃ u d, (s.argWord 0).toNat = 32768 + d.val ∧ step t = .next u ∧ (u.reg d).toNat = c ∧ u.inbuf = rest ∧
        u.pc = s.pc + 2 ∧ u.status = .running)

/-! ### The host's tools at the boundary -/

/-- R186, D21: the reserved `save` lines of the input provider. The codes of `save`, of a blank and of the line's end are the
model's choice (logs 5 and 11, PRESUMED), and so is that blanks at the ends of a line make no word (log 20, DESIGN CHOICE). -/
def Obligations.ReservedSaveLines : Prop :=
  ∀ (s : State) (followup line : List Nat), s.lineRequest = true →
    (∀ path, splitBlanks [] line = [[115, 97, 118, 101], path] →
      ∃ t, provideLine followup line s = .ok (.saved path t.snapshot t) ∧ t.inbuf = followup ++ [10] ∧
        t = { s with inbuf := t.inbuf } ∧ t.lineRequest = false) ∧
    (∀ args, splitBlanks [] line = [115, 97, 118, 101] :: args → args.length ≠ 1 →
      provideLine followup line s = .ok .usage) ∧
    ((splitBlanks [] line).head? ≠ some [115, 97, 118, 101] →
      ∃ t, provideLine followup line s = .ok (.delivered t) ∧ s.deliverLine line = .next t)

/-- R244: loading what was saved gives the saved state back, whatever the state loaded into, but for what that state has
sent on OUT and its parameters, which a snapshot does not hold (log 10). -/
def Obligations.SnapshotRoundTrip : Prop :=
  ∀ s u : State, s.Inv → s.status = .running →
    s.save = .ok s.snapshot ∧ u.load s.snapshot = .next { s with output := u.output, params := u.params }

/-- R219: HALTED and the blocked wait take no step (log 7), and the host can snapshot both; a load of that snapshot gives
the state back, RUNNING (R244). A FAULTED engine has no snapshot (log 19). -/
def Obligations.StoppedStatesCanBeSnapshot : Prop :=
  (∀ s u : State, s.Inv → (s.status = .halted ∨ s.lineRequest = true) →
    step s = .next s ∧ s.hostSnapshot = .ok s.snapshot ∧
      u.load s.snapshot = .next { s with status := .running, output := u.output, params := u.params }) ∧
  (∀ (s : State) (r : FaultRecord), s.status = .faulted r → s.hostSnapshot = .error .saveNotRunning)

/-- R244: a load whose state breaks one of the engine's invariants is refused, and the engine's own save while not RUNNING
stops. -/
def Obligations.BadSnapshotRefused : Prop :=
  (∀ (u : State) (p : Snapshot),
    ((∃ v ∈ p.regs.toList, 32767 < v) ∨ 32768 < p.pc ∨ (∃ w ∈ p.mem, 65535 < w) ∨ (∃ w ∈ p.stack, 65535 < w) ∨
      p.mem.length ≠ 32768) → u.load p = .refused .snapshotInvalid) ∧
  (∀ s : State, s.status ≠ .running → s.save = .error .saveNotRunning)

/-- R226: a session under the debugger goes through states that STEP alone goes through. -/
def Obligations.DebuggerIsTransparent : Prop :=
  ∀ (d : Debugger) (halfWidth : Nat) (cmds : List Command) (s : State) (n : Nat),
    ∃ k ≤ n, (d.run halfWidth cmds s n).outcome = Sys2Proof.core.run k s

/-- R223, R225: a toggle adds the address if absent and removes it if present, twice gives the set back, and an address
above 32767 is rejected. That the set is a rising list, which is the premise and which a toggle keeps, is the model's own
(log 15, DESIGN CHOICE). -/
def Obligations.BreakpointToggle : Prop :=
  ∀ (d : Debugger) (halfWidth : Nat) (s : State) (n : Nat), d.breakpoints.Pairwise (· < ·) →
    (n ≤ 32767 →
      ∃ e, d.command halfWidth s (.toggle n) = (e, .toggled) ∧ e.singleStep = d.singleStep ∧
        e.breakpoints.Pairwise (· < ·) ∧ (∀ m, m ∈ e.breakpoints ↔ (m ∈ d.breakpoints ∧ m ≠ n ∨ m = n ∧ n ∉ d.breakpoints)) ∧
        e.command halfWidth s (.toggle n) = (d, .toggled)) ∧
    (32767 < n → d.command halfWidth s (.toggle n) = (d, .rejected))

/-- R90, R91, R93: the disassembler at one address. A known opcode whose words lie in memory gives a triple that encodes
back to those words, one whose words pass 32767 ends the listing, and an unknown opcode gives the placeholder and one word.
R93 promises the round trip for argument words up to 32775 only; that it holds for an invalid argument word, in
[32776, 65535], too is the model's choice (log 17, DESIGN CHOICE). -/
def Obligations.DisassemblyReassembles : Prop :=
  ∀ (unknown : String) (s : State) (a : Nat), a < 32768 →
    (∀ row ∈ opcodeMap, (s.read a).toNat = row.code →
      (a + row.arity < 32768 →
        ∃ t, disassembleAt unknown s.mem a = some (t, a + 1 + row.arity) ∧ t.addr = a ∧ t.mnemonic = row.mnemonic ∧
          assemble t = some ((List.range (1 + row.arity)).map fun k => s.read (a + k))) ∧
      (32768 ≤ a + row.arity → disassembleAt unknown s.mem a = none)) ∧
    (22 ≤ (s.read a).toNat → disassembleAt unknown s.mem a = some (⟨a, unknown, []⟩, a + 1))

/-- R92: how the disassembler shows an argument word, in either role. -/
def Obligations.ArgumentsShownRaw : Prop :=
  ∀ w : Word,
    (w.toNat ≤ 32767 → render w = .number w.toNat) ∧
    (∀ r : Reg, w.toNat = 32768 + r.val → render w = .register r) ∧
    (32776 ≤ w.toNat → render w = .number w.toNat)
end

