-- ==== Sys2Proof/Laws/Decode.lean ====
section
/-! SUPPORT. The laws of the decoder and the encoder: argument words and their classes, and each opcode's decoding. -/

namespace Sys2Proof

theorem classify_of_le_valueMax {w : Word} (h : w.toNat ≤ 32767) : classify w = .lit (BitVec.ofNat 15 w.toNat) := by
  simp [classify, h]

theorem classify_of_register {w : Word} (r : Reg) (h : w.toNat = 32768 + r.val) : classify w = .reg r := by
  have h1 : ¬ w.toNat ≤ 32767 := by omega
  have h2 : w.toNat ≤ 32775 := by omega
  have h3 : w.toNat - 32768 = r.val := by omega
  simp [classify, h1, h2, h3]

theorem classify_of_ge {w : Word} (h : 32776 ≤ w.toNat) : classify w = .invalid w := by
  have h1 : ¬ w.toNat ≤ 32767 := by omega
  have h2 : ¬ w.toNat ≤ 32775 := by omega
  simp [classify, h1, h2]

theorem Value.toNat_toWord (v : Value) : v.toWord.toNat = v.toNat := by
  have := v.isLt
  simp only [Value.toWord, BitVec.toNat_setWidth]
  exact Nat.mod_eq_of_lt (by omega)

theorem Operand.toNat_toWord_reg (r : Reg) : (Operand.reg r).toWord.toNat = 32768 + r.val := by
  have := r.isLt
  simp only [Operand.toWord, BitVec.toNat_ofNat, Config.regBase]
  exact Nat.mod_eq_of_lt (by omega)

/-- An argument word is the word of its class (R75, R88). -/
theorem toWord_classify (w : Word) : (classify w).toWord = w := by
  have hw := w.isLt
  apply BitVec.eq_of_toNat_eq
  by_cases h1 : w.toNat ≤ 32767
  · rw [classify_of_le_valueMax h1]
    simp only [Operand.toWord, Value.toNat_toWord, BitVec.toNat_ofNat]
    exact Nat.mod_eq_of_lt (by omega)
  · by_cases h2 : w.toNat ≤ 32775
    · rw [classify_of_register ⟨w.toNat - 32768, by omega⟩ (by simp only; omega), Operand.toNat_toWord_reg]
      simp only
      omega
    · rw [classify_of_ge (by omega)]
      rfl

/-- An invalid argument is its own word, in [32776, 65535] (R75). -/
theorem eq_of_classify_invalid {w x : Word} (h : classify w = .invalid x) : x = w ∧ 32776 ≤ w.toNat := by
  have hx := toWord_classify w
  rw [h] at hx
  refine ⟨hx, ?_⟩
  by_contra hlt
  by_cases hl : w.toNat ≤ 32767
  · rw [classify_of_le_valueMax hl] at h
    cases h
  · rw [classify_of_register ⟨w.toNat - 32768, by omega⟩ (by simp only; omega)] at h
    cases h

/-- The word of a literal argument is its value (R75). -/
theorem toNat_of_classify_lit {w : Word} {v : Value} (h : classify w = .lit v) : w.toNat = v.toNat := by
  have hx := toWord_classify w
  rw [h] at hx
  rw [← hx]
  exact Value.toNat_toWord v

/-- The class of an operand's word is the operand, for every operand some word classifies to (R75, R88). -/
theorem classify_toWord {o : Operand} (h : o.canonical = true) : classify o.toWord = o := by
  cases o with
  | lit v =>
    have hv := v.isLt
    have e : v.toWord.toNat = v.toNat := Value.toNat_toWord v
    simp only [Operand.toWord]
    rw [classify_of_le_valueMax (by omega), e]
    simp
  | reg r => exact classify_of_register r (Operand.toNat_toWord_reg r)
  | invalid w => exact classify_of_ge (of_decide_eq_true h)

theorem Operand.canonical_of_readable {o : Operand} (h : o.readable = true) : o.canonical = true := by
  cases o <;> simp_all [Operand.readable, Operand.canonical]

theorem Operand.canonical_of_isDest {o : Operand} (h : o.isDest = true) : o.canonical = true := by
  cases o <;> simp_all [Operand.isDest, Operand.canonical]

/-- The arguments of a well-formed instruction are classes of argument words. -/
theorem Instr.canonical_args {i : Instr} (h : i.wellFormed = true) : ∀ o ∈ i.args, o.canonical = true := by
  cases i <;> simp_all [Instr.wellFormed, Instr.args, Operand.canonical_of_readable, Operand.canonical_of_isDest]

/-- What an F1 decoding can answer. -/
theorem decodeF1_cases (op : Word) (role : Role) (mk : Operand → Instr) (ws : List Word) :
    (∃ a rest, ws = a :: rest ∧ decodeF1 op role mk ws = .ok (mk (classify a), rest)) ∨
      (ws.length < 1 ∧ decodeF1 op role mk ws = .error (.truncated op role ws)) := by
  match ws with
  | [] => exact .inr ⟨by simp, rfl⟩
  | a :: rest => exact .inl ⟨a, rest, rfl, rfl⟩

/-- What an F2 decoding can answer. -/
theorem decodeF2_cases (op : Word) (role : Role) (mk : Operand → Operand → Instr) (ws : List Word) :
    (∃ a b rest, ws = a :: b :: rest ∧ decodeF2 op role mk ws = .ok (mk (classify a) (classify b), rest)) ∨
      (ws.length < 2 ∧ decodeF2 op role mk ws = .error (.truncated op role ws)) := by
  match ws with
  | [] => exact .inr ⟨by simp, rfl⟩
  | [_] => exact .inr ⟨by simp, rfl⟩
  | a :: b :: rest => exact .inl ⟨a, b, rest, rfl, rfl⟩

/-- What an F3 decoding can answer. -/
theorem decodeF3_cases (op : Word) (role : Role) (mk : Operand → Operand → Operand → Instr) (ws : List Word) :
    (∃ a b c rest, ws = a :: b :: c :: rest ∧
      decodeF3 op role mk ws = .ok (mk (classify a) (classify b) (classify c), rest)) ∨
      (ws.length < 3 ∧ decodeF3 op role mk ws = .error (.truncated op role ws)) := by
  match ws with
  | [] => exact .inr ⟨by simp, rfl⟩
  | [_] => exact .inr ⟨by simp, rfl⟩
  | [_, _] => exact .inr ⟨by simp, rfl⟩
  | a :: b :: c :: rest => exact .inl ⟨a, b, c, rest, rfl, rfl⟩

end Sys2Proof
end

