-- ==== Sys2Proof/Laws/Memory.lean ====
section
/-! SUPPORT. The laws of memory: a read after a write, the frame of a write, and the canonical form. -/

namespace Sys2Proof.Machine

/-- A write leaves every other address alone (R56), in any memory. -/
theorem Memory.get_set_of_ne (m : Memory) {a b : Nat} (w : Word) (h : b ≠ a) :
    (Memory.set m a w).get b = m.get b := by
  induction m with
  | nil => simp only [Memory.set]; split <;> simp [Memory.get, h.symm]
  | cons c t ih =>
    obtain ⟨k, v⟩ := c
    simp only [Memory.set]
    split
    · split <;> simp [Memory.get, h.symm]
    · split
      · rename_i ha
        subst ha
        split <;> simp [Memory.get, h.symm]
      · simp [Memory.get, ih]

/-- An address below every listed one reads 0. -/
theorem Memory.get_eq_zero_of_lt {m : Memory} {a : Nat} (h : ∀ c ∈ m, a < c.1) : m.get a = 0 := by
  induction m with
  | nil => rfl
  | cons c t ih =>
    obtain ⟨k, v⟩ := c
    have hk : a < k := h (k, v) (by simp)
    simp [Memory.get, Nat.ne_of_gt hk, ih (fun c hc => h c (by simp [hc]))]

/-- A read after a write to the same address gives the word written (R60, R64). -/
theorem Memory.get_set_same {m : Memory} (h : m.wf) (a : Nat) (w : Word) : (Memory.set m a w).get a = w := by
  induction m with
  | nil => simp only [Memory.set]; split <;> simp_all [Memory.get]
  | cons c t ih =>
    obtain ⟨k, v⟩ := c
    obtain ⟨hp, hc⟩ := h
    rw [List.pairwise_cons] at hp
    have ht : ∀ d ∈ t, k < d.1 := fun d hd => hp.1 d hd
    simp only [Memory.set]
    split
    · rename_i hlt
      split
      · rename_i hw
        rw [hw]
        refine Memory.get_eq_zero_of_lt fun d hd => ?_
        rcases List.mem_cons.1 hd with rfl | hd
        · exact hlt
        · exact Nat.lt_trans hlt (ht d hd)
      · simp [Memory.get]
    · split
      · rename_i ha
        subst ha
        split
        · rename_i hw
          rw [hw]
          exact Memory.get_eq_zero_of_lt ht
        · simp [Memory.get]
      · rename_i hne
        have ih' := ih ⟨hp.2, fun d hd => hc d (by simp [hd])⟩
        simp [Memory.get, Ne.symm hne, ih']

/-- Every address a write lists was listed before, or is the one written. -/
theorem Memory.mem_set {m : Memory} {a : Nat} {w : Word} {c : Nat × Word} (h : c ∈ Memory.set m a w) :
    c ∈ m ∨ (c = (a, w) ∧ w ≠ 0) := by
  induction m with
  | nil =>
    simp only [Memory.set] at h
    split at h
    · simp at h
    · exact .inr ⟨by simpa using h, ‹_›⟩
  | cons d t ih =>
    obtain ⟨k, v⟩ := d
    simp only [Memory.set] at h
    split at h
    · split at h
      · exact .inl h
      · rcases List.mem_cons.1 h with rfl | h
        · exact .inr ⟨rfl, ‹_›⟩
        · exact .inl h
    · split at h
      · split at h
        · exact .inl (List.mem_cons_of_mem _ h)
        · rcases List.mem_cons.1 h with rfl | h
          · exact .inr ⟨rfl, ‹_›⟩
          · exact .inl (List.mem_cons_of_mem _ h)
      · rcases List.mem_cons.1 h with rfl | h
        · exact .inl (by simp)
        · rcases ih h with h | h
          · exact .inl (List.mem_cons_of_mem _ h)
          · exact .inr h

/-- A write inside the address space keeps the canonical form. -/
theorem Memory.wf_set {m : Memory} (h : m.wf) {a : Nat} (ha : a < Config.memWords) (w : Word) :
    (Memory.set m a w).wf := by
  refine ⟨?_, fun c hc => ?_⟩
  · have hp := h.1
    clear h
    induction m with
    | nil => simp only [Memory.set]; split <;> simp
    | cons c t ih =>
      obtain ⟨k, v⟩ := c
      rw [List.pairwise_cons] at hp
      have ht : ∀ d ∈ t, k < d.1 := fun d hd => hp.1 d hd
      simp only [Memory.set]
      split
      · rename_i hlt
        split
        · exact List.pairwise_cons.2 hp
        · refine List.pairwise_cons.2 ⟨fun d hd => ?_, List.pairwise_cons.2 hp⟩
          rcases List.mem_cons.1 hd with rfl | hd
          · exact hlt
          · exact Nat.lt_trans hlt (ht d hd)
      · rename_i hnlt
        split
        · rename_i hk
          subst hk
          split
          · exact hp.2
          · exact List.pairwise_cons.2 ⟨fun d hd => ht d hd, hp.2⟩
        · rename_i hne
          refine List.pairwise_cons.2 ⟨fun d hd => ?_, ih hp.2⟩
          rcases Memory.mem_set hd with hd | ⟨rfl, -⟩
          · exact ht d hd
          · exact Nat.lt_of_le_of_ne (Nat.not_lt.1 hnlt) (Ne.symm hne)
  · rcases Memory.mem_set hc with hc | ⟨rfl, hw⟩
    · exact h.2 c hc
    · exact ⟨ha, hw⟩

/-- Every address a word sequence lists lies inside it. -/
theorem Memory.mem_ofWordsFrom {ws : List Word} {k : Nat} {c : Nat × Word} (h : c ∈ Memory.ofWordsFrom k ws) :
    k ≤ c.1 ∧ c.1 < k + ws.length ∧ c.2 ≠ 0 := by
  induction ws generalizing k with
  | nil => simp [Memory.ofWordsFrom] at h
  | cons w t ih =>
    simp only [Memory.ofWordsFrom] at h
    split at h
    · have := ih h
      simp only [List.length_cons]
      exact ⟨by omega, by omega, this.2.2⟩
    · rcases List.mem_cons.1 h with rfl | h
      · simp only [List.length_cons]
        exact ⟨Nat.le_refl _, by omega, ‹_›⟩
      · have := ih h
        simp only [List.length_cons]
        exact ⟨by omega, by omega, this.2.2⟩

/-- The memory of an image that fits is in canonical form (R241). -/
theorem Memory.wf_ofWordsFrom {ws : List Word} {k : Nat} (h : k + ws.length ≤ Config.memWords) :
    (Memory.ofWordsFrom k ws).wf := by
  refine ⟨?_, fun c hc => ?_⟩
  · clear h
    induction ws generalizing k with
    | nil => simp [Memory.ofWordsFrom]
    | cons w t ih =>
      simp only [Memory.ofWordsFrom]
      split
      · exact ih
      · exact List.pairwise_cons.2 ⟨fun d hd => (Memory.mem_ofWordsFrom hd).1, ih⟩
  · obtain ⟨-, h2, h3⟩ := Memory.mem_ofWordsFrom hc
    exact ⟨by omega, h3⟩

/-- What the memory of a word sequence reads as, at any address (R38, R241). -/
theorem Memory.get_ofWordsFrom (ws : List Word) (k a : Nat) :
    (Memory.ofWordsFrom k ws).get a = if k ≤ a then ws.getD (a - k) 0 else 0 := by
  induction ws generalizing k with
  | nil => simp [Memory.ofWordsFrom, Memory.get]
  | cons w t ih =>
    have key : (Memory.ofWordsFrom k (w :: t)).get a = if k = a then w else (Memory.ofWordsFrom (k + 1) t).get a := by
      simp only [Memory.ofWordsFrom]
      split
      · rename_i hw
        split
        · rename_i hka
          rw [hw, Memory.get_eq_zero_of_lt fun c hc => ?_]
          have := (Memory.mem_ofWordsFrom hc).1
          omega
        · rfl
      · simp [Memory.get]
    rw [key, ih]
    by_cases hka : k = a
    · subst hka; simp
    · by_cases hle : k + 1 ≤ a
      · have e : a - k = (a - (k + 1)) + 1 := by omega
        simp [hka, hle, Nat.le_of_lt hle, e]
      · have : ¬ k ≤ a := by omega
        simp [hka, hle, this]

/-- Two memories in canonical form that read alike at every address are equal. -/
theorem Memory.ext {m n : Memory} (hm : m.wf) (hn : n.wf) (h : ∀ a, m.get a = n.get a) : m = n := by
  induction m generalizing n with
  | nil =>
    cases n with
    | nil => rfl
    | cons c t =>
      obtain ⟨k, v⟩ := c
      have := h k
      simp only [Memory.get, if_true] at this
      exact absurd this.symm (hn.2 (k, v) (by simp)).2
  | cons c t ih =>
    obtain ⟨k, v⟩ := c
    have hp := List.pairwise_cons.1 hm.1
    have hv : v ≠ 0 := (hm.2 (k, v) (by simp)).2
    cases n with
    | nil =>
      have := h k
      simp only [Memory.get, if_true] at this
      exact absurd this hv
    | cons d u =>
      obtain ⟨l, x⟩ := d
      have hq := List.pairwise_cons.1 hn.1
      have hx : x ≠ 0 := (hn.2 (l, x) (by simp)).2
      have hkl : k = l := by
        rcases Nat.lt_trichotomy k l with hlt | he | hgt
        · exfalso
          have h1 := h k
          have h2 : Memory.get ((l, x) :: u) k = 0 := by
            refine Memory.get_eq_zero_of_lt fun d hd => ?_
            rcases List.mem_cons.1 hd with rfl | hd
            · exact hlt
            · exact Nat.lt_trans hlt (hq.1 d hd)
          rw [h2] at h1
          simp only [Memory.get, if_true] at h1
          exact hv h1
        · exact he
        · exfalso
          have h1 := h l
          have h2 : Memory.get ((k, v) :: t) l = 0 := by
            refine Memory.get_eq_zero_of_lt fun d hd => ?_
            rcases List.mem_cons.1 hd with rfl | hd
            · exact hgt
            · exact Nat.lt_trans hgt (hp.1 d hd)
          rw [h2] at h1
          simp only [Memory.get, if_true] at h1
          exact hx h1.symm
      subst hkl
      have hvx : v = x := by simpa [Memory.get] using h k
      subst hvx
      have ht : t = u := by
        refine ih ⟨hp.2, fun c hc => hm.2 c (by simp [hc])⟩ ⟨hq.2, fun c hc => hn.2 c (by simp [hc])⟩ fun a => ?_
        by_cases hka : k = a
        · subst hka
          rw [Memory.get_eq_zero_of_lt fun c hc => hp.1 c hc, Memory.get_eq_zero_of_lt fun c hc => hq.1 c hc]
        · simpa [Memory.get, hka] using h a
      rw [ht]

end Sys2Proof.Machine
end

