-- ==== Sys2Proof/Laws/State.lean ====
section
/-! SUPPORT. One lemma per field per update of the state, so that no later proof unfolds a record update. -/

namespace Sys2Proof.Machine

variable (s : State)

/-! `setReg` -/
@[simp] theorem setReg_pc (r v) : (s.setReg r v).pc = s.pc := rfl
@[simp] theorem setReg_stack (r v) : (s.setReg r v).stack = s.stack := rfl
@[simp] theorem setReg_mem (r v) : (s.setReg r v).mem = s.mem := rfl
@[simp] theorem setReg_inbuf (r v) : (s.setReg r v).inbuf = s.inbuf := rfl
@[simp] theorem setReg_status (r v) : (s.setReg r v).status = s.status := rfl
@[simp] theorem setReg_output (r v) : (s.setReg r v).output = s.output := rfl
@[simp] theorem setReg_params (r v) : (s.setReg r v).params = s.params := rfl
@[simp] theorem setReg_read (r v a) : (s.setReg r v).read a = s.read a := rfl

/-! `advance` -/
@[simp] theorem advance_pc (n) : (s.advance n).pc = s.pc + BitVec.ofNat 16 n := rfl
@[simp] theorem advance_regs (n) : (s.advance n).regs = s.regs := rfl
@[simp] theorem advance_reg (n r) : (s.advance n).reg r = s.reg r := rfl
@[simp] theorem advance_stack (n) : (s.advance n).stack = s.stack := rfl
@[simp] theorem advance_mem (n) : (s.advance n).mem = s.mem := rfl
@[simp] theorem advance_inbuf (n) : (s.advance n).inbuf = s.inbuf := rfl
@[simp] theorem advance_status (n) : (s.advance n).status = s.status := rfl
@[simp] theorem advance_output (n) : (s.advance n).output = s.output := rfl
@[simp] theorem advance_params (n) : (s.advance n).params = s.params := rfl
@[simp] theorem advance_read (n a) : (s.advance n).read a = s.read a := rfl

/-! `jump` -/
@[simp] theorem jump_pc (w) : (s.jump w).pc = w := rfl
@[simp] theorem jump_regs (w) : (s.jump w).regs = s.regs := rfl
@[simp] theorem jump_reg (w r) : (s.jump w).reg r = s.reg r := rfl
@[simp] theorem jump_stack (w) : (s.jump w).stack = s.stack := rfl
@[simp] theorem jump_mem (w) : (s.jump w).mem = s.mem := rfl
@[simp] theorem jump_inbuf (w) : (s.jump w).inbuf = s.inbuf := rfl
@[simp] theorem jump_status (w) : (s.jump w).status = s.status := rfl
@[simp] theorem jump_output (w) : (s.jump w).output = s.output := rfl
@[simp] theorem jump_params (w) : (s.jump w).params = s.params := rfl
@[simp] theorem jump_read (w a) : (s.jump w).read a = s.read a := rfl

/-! `halt` -/
@[simp] theorem halt_pc : s.halt.pc = s.pc := rfl
@[simp] theorem halt_regs : s.halt.regs = s.regs := rfl
@[simp] theorem halt_reg (r) : s.halt.reg r = s.reg r := rfl
@[simp] theorem halt_stack : s.halt.stack = s.stack := rfl
@[simp] theorem halt_mem : s.halt.mem = s.mem := rfl
@[simp] theorem halt_inbuf : s.halt.inbuf = s.inbuf := rfl
@[simp] theorem halt_status : s.halt.status = .halted := rfl
@[simp] theorem halt_output : s.halt.output = s.output := rfl
@[simp] theorem halt_params : s.halt.params = s.params := rfl
@[simp] theorem halt_read (a) : s.halt.read a = s.read a := rfl

/-! `emit` -/
@[simp] theorem emit_pc (v) : (s.emit v).pc = s.pc := rfl
@[simp] theorem emit_regs (v) : (s.emit v).regs = s.regs := rfl
@[simp] theorem emit_reg (v r) : (s.emit v).reg r = s.reg r := rfl
@[simp] theorem emit_stack (v) : (s.emit v).stack = s.stack := rfl
@[simp] theorem emit_mem (v) : (s.emit v).mem = s.mem := rfl
@[simp] theorem emit_inbuf (v) : (s.emit v).inbuf = s.inbuf := rfl
@[simp] theorem emit_status (v) : (s.emit v).status = s.status := rfl
@[simp] theorem emit_output (v) : (s.emit v).output = s.output ++ [v] := rfl
@[simp] theorem emit_params (v) : (s.emit v).params = s.params := rfl
@[simp] theorem emit_read (v a) : (s.emit v).read a = s.read a := rfl

/-! `takeFault` -/
@[simp] theorem takeFault_pc (c o as v) : (s.takeFault c o as v).pc = s.pc := rfl
@[simp] theorem takeFault_regs (c o as v) : (s.takeFault c o as v).regs = s.regs := rfl
@[simp] theorem takeFault_reg (c o as v r) : (s.takeFault c o as v).reg r = s.reg r := rfl
@[simp] theorem takeFault_stack (c o as v) : (s.takeFault c o as v).stack = s.stack := rfl
@[simp] theorem takeFault_mem (c o as v) : (s.takeFault c o as v).mem = s.mem := rfl
@[simp] theorem takeFault_inbuf (c o as v) : (s.takeFault c o as v).inbuf = s.inbuf := rfl
@[simp] theorem takeFault_status (c o as v) : (s.takeFault c o as v).status = .faulted ⟨c, s.pc, o, as, v⟩ := rfl
@[simp] theorem takeFault_output (c o as v) : (s.takeFault c o as v).output = s.output := rfl
@[simp] theorem takeFault_params (c o as v) : (s.takeFault c o as v).params = s.params := rfl
@[simp] theorem takeFault_read (c o as v a) : (s.takeFault c o as v).read a = s.read a := rfl

/-! `primeLine` -/
@[simp] theorem primeLine_pc (l) : (s.primeLine l).pc = s.pc := rfl
@[simp] theorem primeLine_regs (l) : (s.primeLine l).regs = s.regs := rfl
@[simp] theorem primeLine_stack (l) : (s.primeLine l).stack = s.stack := rfl
@[simp] theorem primeLine_mem (l) : (s.primeLine l).mem = s.mem := rfl
@[simp] theorem primeLine_inbuf (l) : (s.primeLine l).inbuf = l ++ [Config.newlineCode] := rfl
@[simp] theorem primeLine_status (l) : (s.primeLine l).status = s.status := rfl
@[simp] theorem primeLine_output (l) : (s.primeLine l).output = s.output := rfl
@[simp] theorem primeLine_params (l) : (s.primeLine l).params = s.params := rfl
@[simp] theorem primeLine_window (l) : (s.primeLine l).window = s.window := rfl

/-- A register that was just written reads as what was written (R8). -/
@[simp] theorem setReg_reg_same (r : Reg) (v : Value) : (s.setReg r v).reg r = v := by
  simp [State.setReg, State.reg]

/-- Writing a register leaves every other one alone (R24). -/
theorem setReg_reg_of_ne {r q : Reg} (v : Value) (h : q ≠ r) : (s.setReg r v).reg q = s.reg q := by
  have h' : r.val ≠ q.val := fun e => h (Fin.ext e.symm)
  simp [State.setReg, State.reg, h']

end Sys2Proof.Machine
end

