-- ==== Sys2Proof/Laws/Ops.lean ====
section
/-! SUPPORT. One lemma for each shared operation, which says everything it can do; proofs cite it instead of unfolding
the operation. -/

namespace Sys2Proof.Machine

/-! ### Operands -/

/-- `resolve` succeeds exactly on the operands that have a value, with that value (R76). -/
theorem resolve_eq_ok_iff {k : Nat} {o : Operand} {s : State} {v : Value} :
    resolve k o s = .ok v ↔ s.operand o = some v := by
  cases o <;> simp [resolve, State.operand]

/-- `resolve` fails exactly on an invalid word (R81). -/
theorem resolve_eq_error_iff {k : Nat} {o : Operand} {s : State} {e : Exn} :
    resolve k o s = .error e ↔ ∃ w, o = .invalid w ∧ e = ⟨.invalidOperand, k + 1, some w.toNat⟩ := by
  cases o <;> simp [resolve, eq_comm]

/-- `dest` succeeds exactly on a register (R77). -/
theorem dest_eq_ok_iff {o : Operand} {d : Reg} : dest o = .ok d ↔ o = .reg d := by
  cases o <;> simp [dest]

/-- `dest` fails on a literal and on an invalid word, each with its cause (R77). -/
theorem dest_eq_error_iff {o : Operand} {e : Exn} :
    dest o = .error e ↔
      (∃ v, o = .lit v ∧ e = ⟨.invalidDestination, 1, some v.toNat⟩) ∨
        (∃ w, o = .invalid w ∧ e = ⟨.invalidOperand, 1, some w.toNat⟩) := by
  cases o <;> simp [dest, eq_comm]

/-! ### Primitives -/

theorem toRegister_of_le {n : Nat} (h : n ≤ 32767) : toRegister n = .ok (BitVec.ofNat 15 n) := by
  simp [toRegister, h]

theorem toRegister_of_gt {n : Nat} (h : 32768 ≤ n) : toRegister n = .error ⟨.registerRange, 3, some n⟩ := by
  have : ¬ n ≤ 32767 := by omega
  simp [toRegister, this, Exn.execute]

/-- Everything `toRegister` can answer (R22, R207). -/
theorem toRegister_cases (n : Nat) :
    (n ≤ 32767 ∧ ∃ v : Value, toRegister n = .ok v ∧ v.toNat = n) ∨
      (32768 ≤ n ∧ toRegister n = .error ⟨.registerRange, 3, some n⟩) := by
  by_cases h : n ≤ 32767
  · refine .inl ⟨h, _, toRegister_of_le h, ?_⟩
    simp only [BitVec.toNat_ofNat]
    exact Nat.mod_eq_of_lt (by omega)
  · exact .inr ⟨by omega, toRegister_of_gt (by omega)⟩

/-- Everything `pushWord` can answer (R34, R208). -/
theorem pushWord_cases (s : State) (w : Word) :
    ((∀ n, s.params.stackCapacity = some n → s.stack.length < n) ∧
        pushWord s w = .ok { s with stack := w :: s.stack }) ∨
      ((∃ n, s.params.stackCapacity = some n ∧ n ≤ s.stack.length) ∧
        pushWord s w = .error ⟨.stackOverflow, 3, none⟩) := by
  cases h : s.params.stackCapacity with
  | none => exact .inl ⟨by simp, by simp [pushWord, State.stackHasRoom, h]⟩
  | some n =>
    by_cases hn : s.stack.length < n
    · exact .inl ⟨by simpa using hn, by simp [pushWord, State.stackHasRoom, h, hn]⟩
    · exact .inr ⟨⟨n, rfl, by omega⟩, by simp [pushWord, State.stackHasRoom, h, hn, Exn.execute]⟩

/-- Everything `popWord` can answer (R35). -/
theorem popWord_cases (s : State) :
    (∃ w rest, s.stack = w :: rest ∧ popWord s = .ok (w, { s with stack := rest })) ∨
      (s.stack = [] ∧ popWord s = .error ⟨.stackUnderflow, 3, none⟩) := by
  cases h : s.stack with
  | nil => exact .inr ⟨rfl, by simp [popWord, h, Exn.execute]⟩
  | cons w rest => exact .inl ⟨w, rest, rfl, by simp [popWord, h]⟩

theorem memRead_of_lt (s : State) {a : Nat} (h : a < 32768) : memRead s a = .ok (s.read a) := by
  simp [memRead, h]

theorem memWrite_of_lt (s : State) {a : Nat} (w : Word) (h : a < 32768) :
    memWrite s a w = .ok { s with mem := s.mem.set a w } := by
  simp [memWrite, h]

/-- A data access at a value never raises AddressError (R58). -/
theorem memRead_value (s : State) (v : Value) : memRead s v.toNat = .ok (s.read v.toNat) :=
  memRead_of_lt s v.isLt

theorem memWrite_value (s : State) (v : Value) (w : Word) :
    memWrite s v.toNat w = .ok { s with mem := s.mem.set v.toNat w } :=
  memWrite_of_lt s w v.isLt

/-! ### Instruction shapes -/

/-- Everything `finish` can answer: the committed state, or the fault taken from the state the instruction began in (R85). -/
theorem finish_cases {i : Instr} {s : State} {r : Except Exn State} {t : State} (h : finish i s r = .next t) :
    r = .ok t ∨
      ∃ e, r = .error e ∧ t = s.takeFault e.cause (some i.opcode) (i.argWords.take e.nargs) e.value := by
  cases r with
  | ok u => exact .inl (by simpa [finish] using h)
  | error e => exact .inr ⟨e, rfl, by simpa [finish, eq_comm] using h⟩

/-- An instruction always answers a next state (R200: a fault is one). -/
theorem finish_next (i : Instr) (s : State) (r : Except Exn State) : ∃ t, finish i s r = .next t := by
  cases r <;> exact ⟨_, rfl⟩

theorem finish_ok (i : Instr) (s t : State) : finish i s (.ok t) = .next t := rfl

theorem finish_error (i : Instr) (s : State) (e : Exn) :
    finish i s (.error e) = .next (s.takeFault e.cause (some i.opcode) (i.argWords.take e.nargs) e.value) := rfl

/-- Format F2, role write, with legal arguments. -/
theorem writeUnary_legal {i : Instr} {d : Reg} {b : Operand} {s : State} {vb : Value} (f : Value → Except Exn Value)
    (hb : s.operand b = some vb) :
    writeUnary i (.reg d) b s f = finish i s (do let v ← f vb; return s.writeBack i d v) := by
  have h := (resolve_eq_ok_iff (k := 1)).2 hb
  simp [writeUnary, dest, h, bind, Except.bind]

/-- Format F3, role write, with legal arguments. -/
theorem writeBinary_legal {i : Instr} {d : Reg} {b c : Operand} {s : State} {vb vc : Value}
    (f : Value → Value → Except Exn Value) (hb : s.operand b = some vb) (hc : s.operand c = some vc) :
    writeBinary i (.reg d) b c s f = finish i s (do let v ← f vb vc; return s.writeBack i d v) := by
  have h := (resolve_eq_ok_iff (k := 1)).2 hb
  have h' := (resolve_eq_ok_iff (k := 2)).2 hc
  simp [writeBinary, dest, h, h', bind, Except.bind]

/-- Format F1, role read, with a legal argument. -/
theorem readUnary_legal {i : Instr} {a : Operand} {s : State} {va : Value} (f : Value → Except Exn State)
    (ha : s.operand a = some va) : readUnary i a s f = finish i s (f va) := by
  have h := (resolve_eq_ok_iff (k := 0)).2 ha
  simp [readUnary, h, bind, Except.bind]

/-- Format F2, role read, with legal arguments. -/
theorem readBinary_legal {i : Instr} {a b : Operand} {s : State} {va vb : Value}
    (f : Value → Value → Except Exn State) (ha : s.operand a = some va) (hb : s.operand b = some vb) :
    readBinary i a b s f = finish i s (f va vb) := by
  have h := (resolve_eq_ok_iff (k := 0)).2 ha
  have h' := (resolve_eq_ok_iff (k := 1)).2 hb
  simp [readBinary, h, h', bind, Except.bind]

/-- A result of `writeUnary` that is no fault: the destination written with what `f` gives (R24). -/
theorem writeUnary_cases {i : Instr} {a b : Operand} {s t : State} {f : Value → Except Exn Value}
    (h : writeUnary i a b s f = .next t) :
    (∃ d vb v, a = .reg d ∧ s.operand b = some vb ∧ f vb = .ok v ∧ t = s.writeBack i d v) ∨
      ∃ e : Exn, t = s.takeFault e.cause (some i.opcode) (i.argWords.take e.nargs) e.value ∧
        (dest a = .error e ∨ resolve 1 b s = .error e ∨ ∃ vb, f vb = .error e) := by
  rw [writeUnary] at h
  obtain g | ⟨e, g, rfl⟩ := finish_cases h
  · simp only [bind, Except.bind] at g
    split at g
    · cases g
    · rename_i d hd
      split at g
      · cases g
      · rename_i vb hb
        split at g
        · cases g
        · rename_i v hv
          exact .inl ⟨d, vb, v, dest_eq_ok_iff.1 hd, resolve_eq_ok_iff.1 hb, hv, by cases g; rfl⟩
  · refine .inr ⟨e, rfl, ?_⟩
    simp only [bind, Except.bind] at g
    split at g
    · rename_i x hd
      exact .inl (by cases g; exact hd)
    · split at g
      · rename_i x hb
        exact .inr (.inl (by cases g; exact hb))
      · rename_i vb hb
        split at g
        · rename_i x hf
          exact .inr (.inr ⟨vb, by cases g; exact hf⟩)
        · cases g

/-- A result of `writeBinary`: the destination written with what `f` gives, or the first fault there is (R24, R212). -/
theorem writeBinary_cases {i : Instr} {a b c : Operand} {s t : State} {f : Value → Value → Except Exn Value}
    (h : writeBinary i a b c s f = .next t) :
    (∃ d vb vc v, a = .reg d ∧ s.operand b = some vb ∧ s.operand c = some vc ∧ f vb vc = .ok v ∧
        t = s.writeBack i d v) ∨
      ∃ e : Exn, t = s.takeFault e.cause (some i.opcode) (i.argWords.take e.nargs) e.value ∧
        (dest a = .error e ∨ resolve 1 b s = .error e ∨ resolve 2 c s = .error e ∨ ∃ vb vc, f vb vc = .error e) := by
  rw [writeBinary] at h
  obtain g | ⟨e, g, rfl⟩ := finish_cases h
  · simp only [bind, Except.bind] at g
    split at g
    · cases g
    · rename_i d hd
      split at g
      · cases g
      · rename_i vb hb
        split at g
        · cases g
        · rename_i vc hc
          split at g
          · cases g
          · rename_i v hv
            exact .inl ⟨d, vb, vc, v, dest_eq_ok_iff.1 hd, resolve_eq_ok_iff.1 hb, resolve_eq_ok_iff.1 hc, hv,
              by cases g; rfl⟩
  · refine .inr ⟨e, rfl, ?_⟩
    simp only [bind, Except.bind] at g
    split at g
    · rename_i x hd
      exact .inl (by cases g; exact hd)
    · split at g
      · rename_i x hb
        exact .inr (.inl (by cases g; exact hb))
      · rename_i vb hb
        split at g
        · rename_i x hc
          exact .inr (.inr (.inl (by cases g; exact hc)))
        · rename_i vc hc
          split at g
          · rename_i x hf
            exact .inr (.inr (.inr ⟨vb, vc, by cases g; exact hf⟩))
          · cases g

/-- A result of `readUnary`: what `f` gives, or the first fault there is (R212). -/
theorem readUnary_cases {i : Instr} {a : Operand} {s t : State} {f : Value → Except Exn State}
    (h : readUnary i a s f = .next t) :
    (∃ va, s.operand a = some va ∧ f va = .ok t) ∨
      ∃ e : Exn, t = s.takeFault e.cause (some i.opcode) (i.argWords.take e.nargs) e.value ∧
        (resolve 0 a s = .error e ∨ ∃ va, f va = .error e) := by
  rw [readUnary] at h
  obtain g | ⟨e, g, rfl⟩ := finish_cases h
  · simp only [bind, Except.bind] at g
    split at g
    · cases g
    · rename_i va ha
      exact .inl ⟨va, resolve_eq_ok_iff.1 ha, g⟩
  · refine .inr ⟨e, rfl, ?_⟩
    simp only [bind, Except.bind] at g
    split at g
    · rename_i x ha
      exact .inl (by cases g; exact ha)
    · rename_i va ha
      exact .inr ⟨va, g⟩

/-- A result of `readBinary`: what `f` gives, or the first fault there is (R212). -/
theorem readBinary_cases {i : Instr} {a b : Operand} {s t : State} {f : Value → Value → Except Exn State}
    (h : readBinary i a b s f = .next t) :
    (∃ va vb, s.operand a = some va ∧ s.operand b = some vb ∧ f va vb = .ok t) ∨
      ∃ e : Exn, t = s.takeFault e.cause (some i.opcode) (i.argWords.take e.nargs) e.value ∧
        (resolve 0 a s = .error e ∨ resolve 1 b s = .error e ∨ ∃ va vb, f va vb = .error e) := by
  rw [readBinary] at h
  obtain g | ⟨e, g, rfl⟩ := finish_cases h
  · simp only [bind, Except.bind] at g
    split at g
    · cases g
    · rename_i va ha
      split at g
      · cases g
      · rename_i vb hb
        exact .inl ⟨va, vb, resolve_eq_ok_iff.1 ha, resolve_eq_ok_iff.1 hb, g⟩
  · refine .inr ⟨e, rfl, ?_⟩
    simp only [bind, Except.bind] at g
    split at g
    · rename_i x ha
      exact .inl (by cases g; exact ha)
    · rename_i va ha
      split at g
      · rename_i x hb
        exact .inr (.inl (by cases g; exact hb))
      · rename_i vb hb
        exact .inr (.inr ⟨va, vb, g⟩)

/-- Taking a fault is the status alone (R211). -/
theorem takeFault_eq_faulted (s : State) (c : Cause) (o : Option Word) (as : List Word) (v : Option Nat) :
    s.takeFault c o as v = s.faulted ⟨c, s.pc, o, as, v⟩ := rfl

/-! ### Fetch -/

/-- The words read from `a` on: each is the memory word at its address, and all of them lie below 32768 (R79). -/
theorem wordsFrom_getElem? (m : Memory) (a n k : Nat) :
    (wordsFrom m a n)[k]? = if k < n ∧ a + k < 32768 then some (m.get (a + k)) else none := by
  induction n generalizing a k with
  | zero => simp [wordsFrom]
  | succ n ih =>
    simp only [wordsFrom, Config.memWords]
    split
    · rename_i ha
      cases k with
      | zero => simp [ha]
      | succ k =>
        simp only [List.getElem?_cons_succ, ih]
        have e : a + 1 + k = a + (k + 1) := by omega
        rw [e]
        simp
    · rename_i ha
      have : ¬ a + k < 32768 := by omega
      simp [this]

/-- How many words there are from `a` on. -/
theorem wordsFrom_length (m : Memory) (a n : Nat) : (wordsFrom m a n).length = min n (32768 - a) := by
  induction n generalizing a with
  | zero => simp [wordsFrom]
  | succ n ih =>
    simp only [wordsFrom, Config.memWords]
    split
    · simp only [List.length_cons, ih]
      omega
    · simp only [List.length_nil]
      omega

/-- The window holds the memory words at `pc`, as many as there are, at most four. -/
theorem window_getElem? (s : State) (k : Nat) :
    s.window[k]? = if k < 4 ∧ s.pc.toNat + k < 32768 then some (s.read (s.pc.toNat + k)) else none :=
  wordsFrom_getElem? s.mem s.pc.toNat 4 k

theorem window_length (s : State) : s.window.length = min 4 (32768 - s.pc.toNat) :=
  wordsFrom_length s.mem s.pc.toNat 4

end Sys2Proof.Machine
end

