-- ==== Sys2Proof/Laws/Exec.lean ====
section
/-! SUPPORT. What `exec` and `step` can answer, said once: an instruction with an argument outside its legal class, the
shape of every answer, and the two ways a step of a RUNNING engine goes. -/

namespace Sys2Proof.Machine

/-! ### Argument checks -/

theorem checkArgs_nil (role : Role) (k : Nat) (s : State) : checkArgs role k [] s = .ok () := rfl

/-- The checks of a list of arguments, one argument at a time (R212). -/
theorem checkArgs_cons (role : Role) (k : Nat) (o : Operand) (t : List Operand) (s : State) :
    checkArgs role k (o :: t) s =
      if role = .write ∧ k = 0 then
        match dest o with
        | .ok _ => checkArgs role (k + 1) t s
        | .error e => .error e
      else
        match resolve k o s with
        | .ok _ => checkArgs role (k + 1) t s
        | .error e => .error e := by
  simp only [checkArgs]
  split
  · cases dest o <;> rfl
  · cases resolve k o s <;> rfl

theorem checkArgs_write_zero (o : Operand) (t : List Operand) (s : State) :
    checkArgs .write 0 (o :: t) s =
      match dest o with
      | .ok _ => checkArgs .write 1 t s
      | .error e => .error e := by
  rw [checkArgs_cons, if_pos ⟨rfl, rfl⟩]

theorem checkArgs_succ (role : Role) (k : Nat) (o : Operand) (t : List Operand) (s : State) :
    checkArgs role (k + 1) (o :: t) s =
      match resolve (k + 1) o s with
      | .ok _ => checkArgs role (k + 2) t s
      | .error e => .error e := by
  rw [checkArgs_cons, if_neg (by simp)]

theorem checkArgs_read (k : Nat) (o : Operand) (t : List Operand) (s : State) :
    checkArgs .read k (o :: t) s =
      match resolve k o s with
      | .ok _ => checkArgs .read (k + 1) t s
      | .error e => .error e := by
  rw [checkArgs_cons, if_neg (by simp)]

theorem writeUnary_of_bad_args {i : Instr} {a b : Operand} {s : State} {f : Value → Except Exn Value} {e : Exn}
    (h : checkArgs .write 0 [a, b] s = .error e) : writeUnary i a b s f = finish i s (.error e) := by
  rw [checkArgs_write_zero] at h
  simp only [writeUnary, bind, Except.bind]
  cases hd : dest a with
  | error x => simp only [hd] at h ⊢; cases h; rfl
  | ok d =>
    simp only [hd, checkArgs_succ] at h ⊢
    cases hb : resolve 1 b s with
    | error x => simp only [hb, Nat.zero_add] at h ⊢; cases h; rfl
    | ok v => simp [hb, checkArgs_nil] at h

theorem writeBinary_of_bad_args {i : Instr} {a b c : Operand} {s : State} {f : Value → Value → Except Exn Value}
    {e : Exn} (h : checkArgs .write 0 [a, b, c] s = .error e) : writeBinary i a b c s f = finish i s (.error e) := by
  rw [checkArgs_write_zero] at h
  simp only [writeBinary, bind, Except.bind]
  cases hd : dest a with
  | error x => simp only [hd] at h ⊢; cases h; rfl
  | ok d =>
    simp only [hd, checkArgs_succ] at h ⊢
    cases hb : resolve 1 b s with
    | error x => simp only [hb, Nat.zero_add] at h ⊢; cases h; rfl
    | ok v =>
      simp only [hb, Nat.zero_add] at h ⊢
      cases hc : resolve 2 c s with
      | error x => simp only [hc] at h ⊢; cases h; rfl
      | ok v => simp [hc, checkArgs_nil] at h

theorem readUnary_of_bad_args {i : Instr} {a : Operand} {s : State} {f : Value → Except Exn State} {e : Exn}
    (h : checkArgs .read 0 [a] s = .error e) : readUnary i a s f = finish i s (.error e) := by
  rw [checkArgs_read] at h
  simp only [readUnary, bind, Except.bind]
  cases ha : resolve 0 a s with
  | error x => simp only [ha] at h ⊢; cases h; rfl
  | ok v => simp [ha, checkArgs_nil] at h

theorem readBinary_of_bad_args {i : Instr} {a b : Operand} {s : State} {f : Value → Value → Except Exn State}
    {e : Exn} (h : checkArgs .read 0 [a, b] s = .error e) : readBinary i a b s f = finish i s (.error e) := by
  rw [checkArgs_read] at h
  simp only [readBinary, bind, Except.bind]
  cases ha : resolve 0 a s with
  | error x => simp only [ha] at h ⊢; cases h; rfl
  | ok v =>
    simp only [ha, checkArgs_read] at h ⊢
    cases hb : resolve 1 b s with
    | error x => simp only [hb, Nat.zero_add] at h ⊢; cases h; rfl
    | ok v => simp [hb, checkArgs_nil] at h

/-- An instruction whose arguments fail their checks takes that fault and has no effect (R80, R81). -/
theorem exec_of_bad_args {i : Instr} {s : State} {e : Exn} (h : checkArgs i.role 0 i.args s = .error e) :
    exec i s = .next (s.takeFault e.cause (some i.opcode) (i.argWords.take e.nargs) e.value) := by
  cases i
  case halt => cases h
  case ret => cases h
  case noop => cases h
  case pop a =>
    rw [Instr.role, Instr.args, checkArgs_write_zero] at h
    cases a with
    | reg r => simp [dest, checkArgs_nil] at h
    | lit v => simp only [dest, Except.error.injEq] at h; subst h; rfl
    | invalid w => simp only [dest, Except.error.injEq] at h; subst h; rfl
  case in_ a =>
    rw [Instr.role, Instr.args, checkArgs_write_zero] at h
    cases a with
    | reg r => simp [dest, checkArgs_nil] at h
    | lit v => simp only [dest, Except.error.injEq] at h; subst h; rfl
    | invalid w => simp only [dest, Except.error.injEq] at h; subst h; rfl
  case set a b => exact writeUnary_of_bad_args h
  case not a b => exact writeUnary_of_bad_args h
  case rmem a b => exact writeUnary_of_bad_args h
  case eq a b c => exact writeBinary_of_bad_args h
  case gt a b c => exact writeBinary_of_bad_args h
  case add a b c => exact writeBinary_of_bad_args h
  case mult a b c => exact writeBinary_of_bad_args h
  case mod a b c => exact writeBinary_of_bad_args h
  case and a b c => exact writeBinary_of_bad_args h
  case or a b c => exact writeBinary_of_bad_args h
  case push a => exact readUnary_of_bad_args h
  case jmp a => exact readUnary_of_bad_args h
  case call a => exact readUnary_of_bad_args h
  case out a => exact readUnary_of_bad_args h
  case jt a b => exact readBinary_of_bad_args h
  case jf a b => exact readBinary_of_bad_args h
  case wmem a b => exact readBinary_of_bad_args h

/-- Every meaning ends in `finish`: it commits, or it takes a fault from the state it began in (R85). -/
theorem exec_eq_finish (i : Instr) (s : State) : ∃ r, exec i s = finish i s r := by
  cases i
  case halt => exact ⟨.ok (s.advance Instr.halt.length).halt, rfl⟩
  case noop => exact ⟨.ok (s.advance Instr.noop.length), rfl⟩
  all_goals exact ⟨_, rfl⟩

/-! ### The step -/

/-- A step of a RUNNING engine at an instruction. -/
theorem step_of_decode {s : State} {i : Instr} {rest : List Word} (hr : s.status = .running)
    (h : decode s.window = .ok (i, rest)) : step s = exec i s := by
  simp only [step, hr, h]

/-- A step of a RUNNING engine at no instruction. -/
theorem step_of_decode_error {s : State} {e : DecodeError} (hr : s.status = .running)
    (h : decode s.window = .error e) : step s = .next (s.fetchFault e) := by
  simp only [step, hr, h]

/-- No step is taken while the engine is not RUNNING (R86). -/
theorem step_of_not_running {s : State} (h : s.status ≠ .running) : step s = .next s := by
  unfold step
  split
  · rename_i hr
    exact absurd hr h
  · rfl
  · rfl

/-- A decoded instruction's words are those it was decoded from (R93). -/
theorem decode_words {op : Word} {ws rest : List Word} {i : Instr} (h : decode (op :: ws) = .ok (i, rest)) :
    i.opcode = op ∧ i.argWords ++ rest = ws := by
  have hop : op = BitVec.ofNat 16 op.toNat := by simp
  simp only [decode, decodeOpcode] at h
  split at h <;> (try cases h) <;> rename_i e <;> rw [e] at hop
  all_goals first
    | exact ⟨hop.symm, rfl⟩
    | (rcases decodeF1_cases op _ _ ws with ⟨a, r, rfl, g⟩ | ⟨_, g⟩ <;> rw [g] at h <;> cases h
       exact ⟨hop.symm, by simp [Instr.argWords, Instr.args, toWord_classify]⟩)
    | (rcases decodeF2_cases op _ _ ws with ⟨a, b, r, rfl, g⟩ | ⟨_, g⟩ <;> rw [g] at h <;> cases h
       exact ⟨hop.symm, by simp [Instr.argWords, Instr.args, toWord_classify]⟩)
    | (rcases decodeF3_cases op _ _ ws with ⟨a, b, c, r, rfl, g⟩ | ⟨_, g⟩ <;> rw [g] at h <;> cases h
       exact ⟨hop.symm, by simp [Instr.argWords, Instr.args, toWord_classify]⟩)

/-- A decoded instruction's arguments are its argument words, classified (R75). -/
theorem decode_args {ws rest : List Word} {i : Instr} (h : decode ws = .ok (i, rest)) :
    i.args = i.argWords.map classify := by
  cases ws with
  | nil => cases h
  | cons op ws =>
    simp only [decode, decodeOpcode] at h
    split at h <;> try cases h
    all_goals first
      | rfl
      | (rcases decodeF1_cases op _ _ ws with ⟨a, r, rfl, g⟩ | ⟨_, g⟩ <;> rw [g] at h <;> cases h
         simp [Instr.argWords, Instr.args, toWord_classify])
      | (rcases decodeF2_cases op _ _ ws with ⟨a, b, r, rfl, g⟩ | ⟨_, g⟩ <;> rw [g] at h <;> cases h
         simp [Instr.argWords, Instr.args, toWord_classify])
      | (rcases decodeF3_cases op _ _ ws with ⟨a, b, c, r, rfl, g⟩ | ⟨_, g⟩ <;> rw [g] at h <;> cases h
         simp [Instr.argWords, Instr.args, toWord_classify])

/-- The window begins with the opcode word (R79). -/
theorem window_eq_cons {s : State} (h : s.pc.toNat < 32768) :
    s.window = s.opcodeWord :: wordsFrom s.mem (s.pc.toNat + 1) 3 := by
  simp only [State.window, Config.maxArity]
  rw [show 1 + 3 = 3 + 1 from rfl, wordsFrom, if_pos h]
  rfl

theorem window_eq_nil {s : State} (h : 32768 ≤ s.pc.toNat) : s.window = [] := by
  simp only [State.window, Config.maxArity]
  rw [show 1 + 3 = 3 + 1 from rfl, wordsFrom, if_neg (Nat.not_lt.2 h)]

/-- The words after the opcode word are the argument words (R79). -/
theorem argument_words (s : State) {n : Nat} (hn : n ≤ 3) (h : s.pc.toNat + n < 32768) :
    (wordsFrom s.mem (s.pc.toNat + 1) 3).take n = s.argWordsTo n := by
  apply List.ext_getElem?
  intro k
  simp only [State.argWordsTo, List.getElem?_take, List.getElem?_map, wordsFrom_getElem?]
  by_cases hk : k < n
  · simp [hk, State.argWord, State.read]
    omega
  · simp [hk]

/-- What the window of a decoded instruction says of memory: the instruction's words stand at `pc`, below 32768 (R79). -/
theorem window_of_decode {s : State} {i : Instr} {rest : List Word} (h : decode s.window = .ok (i, rest)) :
    i.opcode = s.opcodeWord ∧ s.pc.toNat + i.args.length < 32768 ∧ i.argWords = s.argWordsTo i.args.length := by
  by_cases hp : s.pc.toNat < 32768
  · rw [window_eq_cons hp] at h
    obtain ⟨h1, h2⟩ := decode_words h
    have hl : i.argWords.length = i.args.length := by simp [Instr.argWords]
    have h3 := congrArg List.length h2
    rw [wordsFrom_length, List.length_append, hl] at h3
    have hlt : s.pc.toNat + i.args.length < 32768 := by omega
    refine ⟨h1, hlt, ?_⟩
    rw [← argument_words s (by omega) hlt, ← h2, ← hl, List.take_left']
    rfl
  · rw [window_eq_nil (Nat.not_lt.1 hp)] at h
    cases h

/-- Argument `k` of a decoded instruction is the word at `A + 1 + k`, classified (R75, R79). -/
theorem argument_of_decode {s : State} {i : Instr} {rest : List Word} {k : Nat} {o : Operand}
    (h : decode s.window = .ok (i, rest)) (ho : i.args[k]? = some o) : o = classify (s.argWord k) := by
  obtain ⟨-, -, hw⟩ := window_of_decode h
  obtain ⟨hk, -⟩ := List.getElem?_eq_some_iff.1 ho
  rw [decode_args h, hw] at ho
  simpa [State.argWordsTo, List.getElem?_range hk, eq_comm] using ho

end Sys2Proof.Machine
end

