-- ==== Sys2Proof/Laws/Effect.lean ====
section
/-! SUPPORT. The inversion of `exec`, said once for every instruction: an answer is the instruction's effect, or a fault
it can raise, taken from the state it began in. Invariants and frames are derived from this. -/

namespace Sys2Proof.Machine

/-- The committed effect of an instruction (41 to 47). -/
def Effect (i : Instr) (s t : State) : Prop :=
  match i with
  | .halt => t = (s.advance 1).halt
  | .noop => t = s.advance 1
  | .set a b => ∃ d vb, a = .reg d ∧ s.operand b = some vb ∧ t = s.writeBack i d vb
  | .not a b => ∃ d vb, a = .reg d ∧ s.operand b = some vb ∧ t = s.writeBack i d (complement vb)
  | .rmem a b => ∃ d vb v, a = .reg d ∧ s.operand b = some vb ∧ v.toNat = (s.read vb.toNat).toNat ∧ t = s.writeBack i d v
  | .eq a b c => ∃ d vb vc, a = .reg d ∧ s.operand b = some vb ∧ s.operand c = some vc ∧
      t = s.writeBack i d (truthValue (vb == vc))
  | .gt a b c => ∃ d vb vc, a = .reg d ∧ s.operand b = some vb ∧ s.operand c = some vc ∧
      t = s.writeBack i d (truthValue (decide (vb.toNat > vc.toNat)))
  | .add a b c => ∃ d vb vc, a = .reg d ∧ s.operand b = some vb ∧ s.operand c = some vc ∧
      t = s.writeBack i d (wrap (vb.toNat + vc.toNat))
  | .mult a b c => ∃ d vb vc, a = .reg d ∧ s.operand b = some vb ∧ s.operand c = some vc ∧
      t = s.writeBack i d (wrap (vb.toNat * vc.toNat))
  | .mod a b c => ∃ d vb vc, a = .reg d ∧ s.operand b = some vb ∧ s.operand c = some vc ∧ vc ≠ 0 ∧
      t = s.writeBack i d (wrap (vb.toNat % vc.toNat))
  | .and a b c => ∃ d vb vc, a = .reg d ∧ s.operand b = some vb ∧ s.operand c = some vc ∧
      t = s.writeBack i d (vb &&& vc)
  | .or a b c => ∃ d vb vc, a = .reg d ∧ s.operand b = some vb ∧ s.operand c = some vc ∧
      t = s.writeBack i d (vb ||| vc)
  | .push a => ∃ va, s.operand a = some va ∧ (∀ n, s.params.stackCapacity = some n → s.stack.length < n) ∧
      t = State.advance { s with stack := va.toWord :: s.stack } 2
  | .pop a => ∃ d w rest v, a = .reg d ∧ s.stack = w :: rest ∧ v.toNat = w.toNat ∧
      t = State.writeBack { s with stack := rest } i d v
  | .jmp a => ∃ va, s.operand a = some va ∧ t = s.jump va.toWord
  | .jt a b => ∃ va vb, s.operand a = some va ∧ s.operand b = some vb ∧
      t = if isNonzero va then s.jump vb.toWord else s.advance 3
  | .jf a b => ∃ va vb, s.operand a = some va ∧ s.operand b = some vb ∧
      t = if isNonzero va then s.advance 3 else s.jump vb.toWord
  | .call a => ∃ va, s.operand a = some va ∧ (∀ n, s.params.stackCapacity = some n → s.stack.length < n) ∧
      t = State.jump { s with stack := (s.pc + 2) :: s.stack } va.toWord
  | .ret => (∃ w rest, s.stack = w :: rest ∧ t = State.jump { s with stack := rest } w) ∨
      (s.stack = [] ∧ s.params.retOnEmpty = .halt ∧ t = (s.advance 1).halt)
  | .wmem a b => ∃ va vb, s.operand a = some va ∧ s.operand b = some vb ∧
      t = State.advance { s with mem := s.mem.set va.toNat vb.toWord } 3
  | .out a => ∃ va, s.operand a = some va ∧ t = (s.emit va).advance 2
  | .in_ a => ∃ d, a = .reg d ∧ ((s.inbuf = [] ∧ t = s) ∨
      ∃ c rest v, s.inbuf = c :: rest ∧ v.toNat = c ∧ t = State.writeBack { s with inbuf := rest } i d v)

/-- The execute-stage fault of an instruction, where it has one (R212 point 4). -/
def ExecuteFault (i : Instr) (s : State) (e : Exn) : Prop :=
  match i with
  | .push _ | .call _ => e = .execute .stackOverflow none ∧ ∃ n, s.params.stackCapacity = some n ∧ n ≤ s.stack.length
  | .pop _ => (e = .execute .stackUnderflow none ∧ s.stack = []) ∨
      ∃ w rest, s.stack = w :: rest ∧ 32768 ≤ w.toNat ∧ e = .execute .registerRange (some w.toNat)
  | .ret => e = .execute .stackUnderflow none ∧ s.stack = [] ∧ s.params.retOnEmpty = .fault
  | .mod _ _ c => e = .execute .arithmeticError none ∧ s.operand c = some 0
  | .rmem _ b => ∃ vb, s.operand b = some vb ∧ 32768 ≤ (s.read vb.toNat).toNat ∧
      e = .execute .registerRange (some (s.read vb.toNat).toNat)
  | .in_ _ => ∃ c rest, s.inbuf = c :: rest ∧ 32768 ≤ c ∧ e = .execute .registerRange (some c)
  | _ => False

/-- Everything an instruction with a register as its destination and readable arguments can answer, or the fault of its
first argument outside its legal class. -/
theorem writeUnary_inv {i : Instr} {a b : Operand} {s t : State} {f : Value → Except Exn Value}
    (h : writeUnary i a b s f = .next t) :
    (∃ d vb, a = .reg d ∧ s.operand b = some vb ∧ finish i s (do let v ← f vb; return s.writeBack i d v) = .next t) ∨
      ∃ e, checkArgs .write 0 [a, b] s = .error e ∧
        t = s.takeFault e.cause (some i.opcode) (i.argWords.take e.nargs) e.value := by
  cases hc : checkArgs .write 0 [a, b] s with
  | error e =>
    rw [writeUnary_of_bad_args hc, finish_error] at h
    exact .inr ⟨e, rfl, by cases h; rfl⟩
  | ok u =>
    rw [checkArgs_write_zero] at hc
    cases hd : dest a with
    | error e => simp [hd] at hc
    | ok d =>
      simp only [hd, checkArgs_succ] at hc
      cases hb : resolve (0 + 1) b s with
      | error e => simp [hb] at hc
      | ok vb =>
        have ha := dest_eq_ok_iff.1 hd
        have hb' := resolve_eq_ok_iff.1 hb
        subst ha
        rw [writeUnary_legal f hb'] at h
        exact .inl ⟨d, vb, rfl, hb', h⟩

theorem writeBinary_inv {i : Instr} {a b c : Operand} {s t : State} {f : Value → Value → Except Exn Value}
    (h : writeBinary i a b c s f = .next t) :
    (∃ d vb vc, a = .reg d ∧ s.operand b = some vb ∧ s.operand c = some vc ∧
        finish i s (do let v ← f vb vc; return s.writeBack i d v) = .next t) ∨
      ∃ e, checkArgs .write 0 [a, b, c] s = .error e ∧
        t = s.takeFault e.cause (some i.opcode) (i.argWords.take e.nargs) e.value := by
  cases hc : checkArgs .write 0 [a, b, c] s with
  | error e =>
    rw [writeBinary_of_bad_args hc, finish_error] at h
    exact .inr ⟨e, rfl, by cases h; rfl⟩
  | ok u =>
    rw [checkArgs_write_zero] at hc
    cases hd : dest a with
    | error e => simp [hd] at hc
    | ok d =>
      simp only [hd, checkArgs_succ] at hc
      cases hb : resolve (0 + 1) b s with
      | error e => simp [hb] at hc
      | ok vb =>
        simp only [hb] at hc
        cases hx : resolve (0 + 1 + 1) c s with
        | error e => simp [hx] at hc
        | ok vc =>
          have ha := dest_eq_ok_iff.1 hd
          have hb' := resolve_eq_ok_iff.1 hb
          have hc' := resolve_eq_ok_iff.1 hx
          subst ha
          rw [writeBinary_legal f hb' hc'] at h
          exact .inl ⟨d, vb, vc, rfl, hb', hc', h⟩

theorem readUnary_inv {i : Instr} {a : Operand} {s t : State} {f : Value → Except Exn State}
    (h : readUnary i a s f = .next t) :
    (∃ va, s.operand a = some va ∧ finish i s (f va) = .next t) ∨
      ∃ e, checkArgs .read 0 [a] s = .error e ∧
        t = s.takeFault e.cause (some i.opcode) (i.argWords.take e.nargs) e.value := by
  cases hc : checkArgs .read 0 [a] s with
  | error e =>
    rw [readUnary_of_bad_args hc, finish_error] at h
    exact .inr ⟨e, rfl, by cases h; rfl⟩
  | ok u =>
    rw [checkArgs_read] at hc
    cases ha : resolve 0 a s with
    | error e => simp [ha] at hc
    | ok va =>
      have ha' := resolve_eq_ok_iff.1 ha
      rw [readUnary_legal f ha'] at h
      exact .inl ⟨va, ha', h⟩

theorem readBinary_inv {i : Instr} {a b : Operand} {s t : State} {f : Value → Value → Except Exn State}
    (h : readBinary i a b s f = .next t) :
    (∃ va vb, s.operand a = some va ∧ s.operand b = some vb ∧ finish i s (f va vb) = .next t) ∨
      ∃ e, checkArgs .read 0 [a, b] s = .error e ∧
        t = s.takeFault e.cause (some i.opcode) (i.argWords.take e.nargs) e.value := by
  cases hc : checkArgs .read 0 [a, b] s with
  | error e =>
    rw [readBinary_of_bad_args hc, finish_error] at h
    exact .inr ⟨e, rfl, by cases h; rfl⟩
  | ok u =>
    rw [checkArgs_read] at hc
    cases ha : resolve 0 a s with
    | error e => simp [ha] at hc
    | ok va =>
      simp only [ha, checkArgs_read] at hc
      cases hb : resolve (0 + 1) b s with
      | error e => simp [hb] at hc
      | ok vb =>
        have ha' := resolve_eq_ok_iff.1 ha
        have hb' := resolve_eq_ok_iff.1 hb
        rw [readBinary_legal f ha' hb'] at h
        exact .inl ⟨va, vb, ha', hb', h⟩

/-- What an instruction answers: its effect, or the fault of an argument, or its execute-stage fault, each fault taken
from the state it began in. -/
theorem exec_cases {i : Instr} {s t : State} (h : exec i s = .next t) :
    Effect i s t ∨
      ∃ e, (checkArgs i.role 0 i.args s = .error e ∨ ExecuteFault i s e) ∧
        t = s.takeFault e.cause (some i.opcode) (i.argWords.take e.nargs) e.value := by
  cases i
  case halt => exact .inl (by cases h; rfl)
  case noop => exact .inl (by cases h; rfl)
  case set a b =>
    rcases writeUnary_inv h with ⟨d, vb, ha, hb, g⟩ | ⟨e, hc, rfl⟩
    · exact .inl ⟨d, vb, ha, hb, by cases g; rfl⟩
    · exact .inr ⟨e, .inl hc, rfl⟩
  case not a b =>
    rcases writeUnary_inv h with ⟨d, vb, ha, hb, g⟩ | ⟨e, hc, rfl⟩
    · exact .inl ⟨d, vb, ha, hb, by cases g; rfl⟩
    · exact .inr ⟨e, .inl hc, rfl⟩
  case rmem a b =>
    rcases writeUnary_inv h with ⟨d, vb, ha, hb, g⟩ | ⟨e, hc, rfl⟩
    · rw [memRead_value] at g
      rcases toRegister_cases (s.read vb.toNat).toNat with ⟨-, v, hv, hn⟩ | ⟨hw, hv⟩
      · simp only [bind, Except.bind, hv] at g
        exact .inl ⟨d, vb, v, ha, hb, hn, by cases g; rfl⟩
      · simp only [bind, Except.bind, hv] at g
        exact .inr ⟨.execute .registerRange (some (s.read vb.toNat).toNat), .inr ⟨vb, hb, hw, rfl⟩, by cases g; rfl⟩
    · exact .inr ⟨e, .inl hc, rfl⟩
  case eq a b c =>
    rcases writeBinary_inv h with ⟨d, vb, vc, ha, hb, hc, g⟩ | ⟨e, hc, rfl⟩
    · exact .inl ⟨d, vb, vc, ha, hb, hc, by cases g; rfl⟩
    · exact .inr ⟨e, .inl hc, rfl⟩
  case gt a b c =>
    rcases writeBinary_inv h with ⟨d, vb, vc, ha, hb, hc, g⟩ | ⟨e, hc, rfl⟩
    · exact .inl ⟨d, vb, vc, ha, hb, hc, by cases g; rfl⟩
    · exact .inr ⟨e, .inl hc, rfl⟩
  case add a b c =>
    rcases writeBinary_inv h with ⟨d, vb, vc, ha, hb, hc, g⟩ | ⟨e, hc, rfl⟩
    · exact .inl ⟨d, vb, vc, ha, hb, hc, by cases g; rfl⟩
    · exact .inr ⟨e, .inl hc, rfl⟩
  case mult a b c =>
    rcases writeBinary_inv h with ⟨d, vb, vc, ha, hb, hc, g⟩ | ⟨e, hc, rfl⟩
    · exact .inl ⟨d, vb, vc, ha, hb, hc, by cases g; rfl⟩
    · exact .inr ⟨e, .inl hc, rfl⟩
  case mod a b c =>
    rcases writeBinary_inv h with ⟨d, vb, vc, ha, hb, hc, g⟩ | ⟨e, hc, rfl⟩
    · by_cases hz : vc = 0
      · rw [if_pos hz] at g
        exact .inr ⟨.execute .arithmeticError none, .inr ⟨rfl, by rw [hc, hz]⟩, by cases g; rfl⟩
      · rw [if_neg hz] at g
        exact .inl ⟨d, vb, vc, ha, hb, hc, hz, by cases g; rfl⟩
    · exact .inr ⟨e, .inl hc, rfl⟩
  case and a b c =>
    rcases writeBinary_inv h with ⟨d, vb, vc, ha, hb, hc, g⟩ | ⟨e, hc, rfl⟩
    · exact .inl ⟨d, vb, vc, ha, hb, hc, by cases g; rfl⟩
    · exact .inr ⟨e, .inl hc, rfl⟩
  case or a b c =>
    rcases writeBinary_inv h with ⟨d, vb, vc, ha, hb, hc, g⟩ | ⟨e, hc, rfl⟩
    · exact .inl ⟨d, vb, vc, ha, hb, hc, by cases g; rfl⟩
    · exact .inr ⟨e, .inl hc, rfl⟩
  case push a =>
    rcases readUnary_inv h with ⟨va, ha, g⟩ | ⟨e, hc, rfl⟩
    · rcases pushWord_cases s va.toWord with ⟨hr, hp⟩ | ⟨hr, hp⟩
      · simp only [bind, Except.bind, hp] at g
        exact .inl ⟨va, ha, hr, by cases g; rfl⟩
      · simp only [bind, Except.bind, hp] at g
        exact .inr ⟨.execute .stackOverflow none, .inr ⟨rfl, hr⟩, by cases g; rfl⟩
    · exact .inr ⟨e, .inl hc, rfl⟩
  case call a =>
    rcases readUnary_inv h with ⟨va, ha, g⟩ | ⟨e, hc, rfl⟩
    · rcases pushWord_cases s (s.advance (Instr.call a).length).pc with ⟨hr, hp⟩ | ⟨hr, hp⟩
      · simp only [bind, Except.bind, hp] at g
        exact .inl ⟨va, ha, hr, by cases g; rfl⟩
      · simp only [bind, Except.bind, hp] at g
        exact .inr ⟨.execute .stackOverflow none, .inr ⟨rfl, hr⟩, by cases g; rfl⟩
    · exact .inr ⟨e, .inl hc, rfl⟩
  case pop a =>
    cases a with
    | lit v => exact .inr ⟨_, .inl rfl, by cases h; rfl⟩
    | invalid w => exact .inr ⟨_, .inl rfl, by cases h; rfl⟩
    | reg d =>
      simp only [exec, execPop, dest, bind, Except.bind] at h
      rcases popWord_cases s with ⟨w, rest, hs, hp⟩ | ⟨hs, hp⟩
      · simp only [hp] at h
        rcases toRegister_cases w.toNat with ⟨-, v, hv, hn⟩ | ⟨hw, hv⟩
        · simp only [hv] at h
          exact .inl ⟨d, w, rest, v, rfl, hs, hn, by cases h; rfl⟩
        · simp only [hv] at h
          exact .inr ⟨.execute .registerRange (some w.toNat), .inr (.inr ⟨w, rest, hs, hw, rfl⟩), by cases h; rfl⟩
      · simp only [hp] at h
        exact .inr ⟨.execute .stackUnderflow none, .inr (.inl ⟨rfl, hs⟩), by cases h; rfl⟩
  case jmp a =>
    rcases readUnary_inv h with ⟨va, ha, g⟩ | ⟨e, hc, rfl⟩
    · exact .inl ⟨va, ha, by cases g; rfl⟩
    · exact .inr ⟨e, .inl hc, rfl⟩
  case jt a b =>
    rcases readBinary_inv h with ⟨va, vb, ha, hb, g⟩ | ⟨e, hc, rfl⟩
    · exact .inl ⟨va, vb, ha, hb, by cases g; rfl⟩
    · exact .inr ⟨e, .inl hc, rfl⟩
  case jf a b =>
    rcases readBinary_inv h with ⟨va, vb, ha, hb, g⟩ | ⟨e, hc, rfl⟩
    · exact .inl ⟨va, vb, ha, hb, by cases g; rfl⟩
    · exact .inr ⟨e, .inl hc, rfl⟩
  case wmem a b =>
    rcases readBinary_inv h with ⟨va, vb, ha, hb, g⟩ | ⟨e, hc, rfl⟩
    · rw [memWrite_value] at g
      exact .inl ⟨va, vb, ha, hb, by cases g; rfl⟩
    · exact .inr ⟨e, .inl hc, rfl⟩
  case out a =>
    rcases readUnary_inv h with ⟨va, ha, g⟩ | ⟨e, hc, rfl⟩
    · exact .inl ⟨va, ha, by cases g; rfl⟩
    · exact .inr ⟨e, .inl hc, rfl⟩
  case ret =>
    simp only [exec, execRet] at h
    rcases popWord_cases s with ⟨w, rest, hs, hp⟩ | ⟨hs, hp⟩
    · simp only [hp] at h
      exact .inl (.inl ⟨w, rest, hs, by cases h; rfl⟩)
    · cases hr : s.params.retOnEmpty with
      | halt =>
        simp only [hp, hr] at h
        exact .inl (.inr ⟨hs, hr, by cases h; rfl⟩)
      | fault =>
        simp only [hp, hr] at h
        exact .inr ⟨.execute .stackUnderflow none, .inr ⟨rfl, hs, hr⟩, by cases h; rfl⟩
  case in_ a =>
    cases a with
    | lit v => exact .inr ⟨_, .inl rfl, by cases h; rfl⟩
    | invalid w => exact .inr ⟨_, .inl rfl, by cases h; rfl⟩
    | reg d =>
      simp only [exec, execIn, dest, bind, Except.bind] at h
      cases hi : s.inbuf with
      | nil =>
        simp only [hi] at h
        exact .inl ⟨d, rfl, .inl ⟨hi, by cases h; rfl⟩⟩
      | cons c rest =>
        simp only [hi] at h
        rcases toRegister_cases c with ⟨-, v, hv, hn⟩ | ⟨hw, hv⟩
        · simp only [hv] at h
          exact .inl ⟨d, rfl, .inr ⟨c, rest, v, hi, hn, by cases h; rfl⟩⟩
        · simp only [hv] at h
          exact .inr ⟨.execute .registerRange (some c), .inr ⟨c, rest, hi, hw, rfl⟩, by cases h; rfl⟩

/-- What a step answers: nothing, while the engine is not RUNNING; the fault of the fetch; or what the decoded
instruction answers (R85, R86). -/
theorem step_cases {s t : State} (h : step s = .next t) :
    (s.status ≠ .running ∧ t = s) ∨
      (∃ e, s.status = .running ∧ decode s.window = .error e ∧ t = s.fetchFault e) ∨
        ∃ i rest, s.status = .running ∧ decode s.window = .ok (i, rest) ∧ exec i s = .next t := by
  by_cases hr : s.status = .running
  · cases hd : decode s.window with
    | error e =>
      rw [step_of_decode_error hr hd] at h
      exact .inr (.inl ⟨e, hr, rfl, by cases h; rfl⟩)
    | ok p =>
      obtain ⟨i, rest⟩ := p
      rw [step_of_decode hr hd] at h
      exact .inr (.inr ⟨i, rest, hr, rfl, h⟩)
  · rw [step_of_not_running hr] at h
    exact .inl ⟨hr, by cases h; rfl⟩

/-- The fault of the fetch is the status alone (R211). -/
theorem fetchFault_is_fault (s : State) (e : DecodeError) : ∃ c o as v, s.fetchFault e = s.takeFault c o as v := by
  cases e with
  | noOpcode => exact ⟨_, _, _, _, rfl⟩
  | unknownOpcode op => exact ⟨_, _, _, _, rfl⟩
  | truncated op role args =>
    simp only [State.fetchFault]
    split <;> exact ⟨_, _, _, _, rfl⟩

end Sys2Proof.Machine
end

