-- ==== Sys2Proof/Laws/Fetch.lean ====
section
/-! SUPPORT. The fetch and decode stage: what the argument checks pass and refuse, and what a decode that fails has read. -/

namespace Sys2Proof.Machine

/-- As many words as arguments asked for. -/
theorem argWordsTo_length (s : State) n : (s.argWordsTo n).length = n := by simp [State.argWordsTo]

/-- The first of the argument words. -/
theorem argWordsTo_take (s : State) {n m} (h : m ≤ n): (s.argWordsTo n).take m = s.argWordsTo m := by
  simp only [State.argWordsTo, ← List.map_take, List.take_range, Nat.min_eq_left h]

/-- A word below 32776 resolves in a read position (R76). -/
theorem resolve_classify_of_legal {k : Nat} {w : Word} {s : State} (h : w.toNat ≤ 32775) : ∃ v, resolve k (classify w) s = .ok v := by
  by_cases h1 : w.toNat ≤ 32767
  · rw [classify_of_le_valueMax h1]; exact ⟨_, rfl⟩
  · rw [classify_of_register ⟨w.toNat - 32768, by omega⟩ (by simp only; omega)]; exact ⟨_, rfl⟩

/-- A register word resolves in a write position (R77). -/
theorem dest_classify_of_legal {w : Word} (h : w.toNat ≤ 32775) (h2 : 32768 ≤ w.toNat): ∃ v, dest (classify w) = .ok v := by
  rw [classify_of_register ⟨w.toNat - 32768, by omega⟩ (by simp only; omega)]; exact ⟨_, rfl⟩

/-- The checks pass over arguments that are legal where they stand (R212). -/
theorem checkArgs_skip {role s} (l : List Word) : ∀ (j0 : Nat) (k : Nat) (hk : k ≤ l.length), (∀ j (h : j < k), argLegal role (j0 + j) l[j]) →
    checkArgs role j0 (l.map classify) s = checkArgs role (j0 + k) ((l.drop k).map classify) s := by
  induction l with
  | nil => intro j0 k hk _; simp at hk; subst hk; rfl
  | cons w t ih =>
    intro j0 k hk hl
    cases k with
    | zero => rfl
    | succ k =>
      have h0 := hl 0 (by omega)
      simp only [List.getElem_cons_zero, Nat.add_zero] at h0
      have e := ih (j0+1) k (by simpa using hk) (fun j hj => by
        have := hl (j+1) (by omega)
        simpa [Nat.add_assoc, Nat.add_comm 1] using this)
      rw [List.map_cons, checkArgs_cons]
      have e2 : j0 + 1 + k = j0 + (k+1) := by omega
      rw [e2] at e
      split
      · rename_i hc
        obtain ⟨d, hd⟩ := dest_classify_of_legal h0.1 (h0.2 hc.1 hc.2)
        rw [hd]; exact e
      · obtain ⟨v, hv⟩ := resolve_classify_of_legal (k := j0) (s := s) h0.1
        rw [hv]; exact e

/-- What F1 decodes to, for any constructor. -/
theorem decodeF1_words (op : Word) (role mk ws) (hrole : ∀ a, (mk a).role = role) (hop : ∀ a, (mk a).opcode = op) (hargs : ∀ a, (mk a).args = [a]) :
   (1 ≤ ws.length ∧ ∃ i rest, decodeF1 op role mk ws = .ok (i,rest) ∧ i.role = role ∧ i.opcode = op ∧ i.args = (ws.take 1).map classify) ∨ (ws.length < 1 ∧ decodeF1 op role mk ws = .error (.truncated op role ws)) := by
  rcases decodeF1_cases op role mk ws with ⟨a, r, rfl, g⟩ | ⟨h, g⟩
  · exact .inl ⟨by simp, _, _, g, hrole _, hop _, by simp [hargs]⟩
  · exact .inr ⟨h, g⟩

/-- What F2 decodes to, for any constructor. -/
theorem decodeF2_words (op : Word) (role mk ws) (hrole : ∀ a b, (mk a b).role = role) (hop : ∀ a b, (mk a b).opcode = op) (hargs : ∀ a b, (mk a b).args = [a,b]) :
   (2 ≤ ws.length ∧ ∃ i rest, decodeF2 op role mk ws = .ok (i,rest) ∧ i.role = role ∧ i.opcode = op ∧ i.args = (ws.take 2).map classify) ∨ (ws.length < 2 ∧ decodeF2 op role mk ws = .error (.truncated op role ws)) := by
  rcases decodeF2_cases op role mk ws with ⟨a, b, r, rfl, g⟩ | ⟨h, g⟩
  · exact .inl ⟨by simp, _, _, g, hrole _ _, hop _ _, by simp [hargs]⟩
  · exact .inr ⟨h, g⟩

/-- What F3 decodes to, for any constructor. -/
theorem decodeF3_words (op : Word) (role mk ws) (hrole : ∀ a b c, (mk a b c).role = role) (hop : ∀ a b c, (mk a b c).opcode = op) (hargs : ∀ a b c, (mk a b c).args = [a,b,c]) :
   (3 ≤ ws.length ∧ ∃ i rest, decodeF3 op role mk ws = .ok (i,rest) ∧ i.role = role ∧ i.opcode = op ∧ i.args = (ws.take 3).map classify) ∨ (ws.length < 3 ∧ decodeF3 op role mk ws = .error (.truncated op role ws)) := by
  rcases decodeF3_cases op role mk ws with ⟨a, b, c, r, rfl, g⟩ | ⟨h, g⟩
  · exact .inl ⟨by simp, _, _, g, hrole _ _ _, hop _ _ _, by simp [hargs]⟩
  · exact .inr ⟨h, g⟩

/-- A decode that ends early read the words from `pc` to the end of memory (R58, R205). -/
theorem truncated_words {s : State} {op role args} (h : decode s.window = .error (.truncated op role args)) :
   op = s.opcodeWord ∧ s.pc.toNat + 1 + args.length = 32768 ∧ args = s.argWordsTo args.length ∧ args.length < 3 := by
  by_cases hp : s.pc.toNat < 32768
  · rw [window_eq_cons hp] at h
    simp only [decode, decodeOpcode] at h
    have key : wordsFrom s.mem (s.pc.toNat + 1) 3 = args ∧ s.opcodeWord = op ∧ args.length < 3 := by
      split at h
      all_goals first
        | cases h; done
        | (rcases decodeF1_cases s.opcodeWord _ _ (wordsFrom s.mem (s.pc.toNat + 1) 3) with ⟨a, r, _, g⟩ | ⟨hl, g⟩ <;> rw [g] at h <;> cases h
           exact ⟨rfl, rfl, by omega⟩)
        | (rcases decodeF2_cases s.opcodeWord _ _ (wordsFrom s.mem (s.pc.toNat + 1) 3) with ⟨a, b, r, _, g⟩ | ⟨hl, g⟩ <;> rw [g] at h <;> cases h
           exact ⟨rfl, rfl, by omega⟩)
        | (rcases decodeF3_cases s.opcodeWord _ _ (wordsFrom s.mem (s.pc.toNat + 1) 3) with ⟨a, b, c, r, _, g⟩ | ⟨hl, g⟩ <;> rw [g] at h <;> cases h
           exact ⟨rfl, rfl, by omega⟩)
    obtain ⟨h1, h2, h3⟩ := key
    have hl : args.length = min 3 (32767 - s.pc.toNat) := by rw [← h1, wordsFrom_length]; omega
    refine ⟨h2.symm, by omega, ?_, h3⟩
    conv_lhs => rw [← h1]
    rw [← argument_words s (n := args.length) (by omega) (by omega), List.take_of_length_le (by rw [h1])]
  · rw [window_eq_nil (by omega)] at h; cases h

/-- A line request is an `in` on an empty buffer (R182). -/
theorem lineRequest_cases {s : State} (h : s.lineRequest = true) : ∃ d rest, s.status = .running ∧ decode s.window = .ok (.in_ (.reg d), rest) ∧ s.inbuf = [] := by
  unfold State.lineRequest at h
  split at h
  · rename_i h1 h2 h3; exact ⟨_, _, h1, h2, h3⟩
  · cases h

/-- Everything the argument checks can raise: InvalidOperand for an invalid argument, or InvalidDestination for a literal
as argument 0 of a write role (R202, R203). -/
theorem checkArgs_error {role : Role} {os : List Operand} {s : State} {e : Exn} : ∀ {k : Nat},
    checkArgs role k os s = .error e →
      (e.cause = .invalidOperand ∧ ∃ (j : Nat) (w : Word), os[j]? = some (Operand.invalid w) ∧ e.value = some w.toNat) ∨
        (e.cause = .invalidDestination ∧ role = .write ∧ k = 0 ∧ ∃ v, os[0]? = some (Operand.lit v)) := by
  induction os with
  | nil => intro k h; cases h
  | cons o t ih =>
    intro k h
    have tail : checkArgs role (k + 1) t s = .error e →
        e.cause = .invalidOperand ∧ ∃ (j : Nat) (w : Word), (o :: t)[j]? = some (Operand.invalid w) ∧ e.value = some w.toNat := by
      intro h
      rcases ih h with ⟨hc, j, w, hj, hv⟩ | ⟨-, -, hk, -⟩
      · exact ⟨hc, j + 1, w, by simpa using hj, hv⟩
      · cases hk
    rw [checkArgs_cons] at h
    split at h
    · rename_i hc
      split at h
      · exact .inl (tail h)
      · rename_i hd
        cases h
        rcases dest_eq_error_iff.1 hd with ⟨v, rfl, rfl⟩ | ⟨w, rfl, rfl⟩
        · exact .inr ⟨rfl, hc.1, hc.2, v, rfl⟩
        · exact .inl ⟨rfl, 0, w, rfl, rfl⟩
    · split at h
      · exact .inl (tail h)
      · rename_i hd
        cases h
        obtain ⟨w, rfl, rfl⟩ := resolve_eq_error_iff.1 hd
        exact .inl ⟨rfl, 0, w, rfl, rfl⟩

/-- An illegal destination faults (R77). -/
theorem dest_error_of_not_isDest {o : Operand} (h : o.isDest = false) : ∃ e, dest o = .error e ∧ e.nargs = 1 ∧ (e.cause = .invalidOperand ∨ (e.cause = .invalidDestination ∧ ∃ v, o = .lit v ∧ e.value = some v.toNat)) := by
  cases o with
  | reg r => simp [Operand.isDest] at h
  | lit v => exact ⟨_, rfl, rfl, .inr ⟨rfl, v, rfl, rfl⟩⟩
  | invalid w => exact ⟨_, rfl, rfl, .inl rfl⟩

/-- An illegal operand faults (R76). -/
theorem resolve_error_of_not_readable {k} {o : Operand} {s : State} (h : o.readable = false) : ∃ e, resolve k o s = .error e ∧ e.cause = .invalidOperand := by
  cases o with
  | reg r => simp [Operand.readable] at h
  | lit v => simp [Operand.readable] at h
  | invalid w => exact ⟨_, rfl, rfl⟩

/-- A legal operand resolves (R76). -/
theorem resolve_ok_of_readable {k} {o : Operand} {s : State} (h : o.readable = true) : ∃ v, resolve k o s = .ok v := by
  cases o with
  | invalid w => simp [Operand.readable] at h
  | lit v => exact ⟨_, rfl⟩
  | reg v => exact ⟨_, rfl⟩

/-- A register is a destination (R77). -/
theorem dest_ok_of_isDest {o : Operand} (h : o.isDest = true) : ∃ v, dest o = .ok v := by
  cases o with
  | invalid w => simp [Operand.isDest] at h
  | lit v => simp [Operand.isDest] at h
  | reg v => exact ⟨_, rfl⟩

end Sys2Proof.Machine
end

