-- ==== Sys2Proof/Laws/Values.lean ====
section
/-! SUPPORT. The small facts a result statement rests on: values, writes, pushes and `pc`. -/

namespace Sys2Proof.Machine

/-- The destination after a write. -/
theorem writeBack_reg (s : State) (i d v) : (s.writeBack i d v).reg d = v := by simp [State.writeBack]

/-- The frame of a write to a register. -/
theorem onlyReg_writeBack (s : State) (i d v) : OnlyReg d s (s.writeBack i d v) :=
  ⟨fun _ hr => setReg_reg_of_ne s v hr, fun _ => rfl, rfl, rfl, rfl, rfl, rfl⟩

/-- F2 with role write, completed. -/
theorem writeUnary_writes {i : Instr} {d : Reg} {b s vb v} (f : Value → Except Exn Value) (hb : s.operand b = some vb) (hf : f vb = .ok v) :
   writeUnary i (.reg d) b s f = .next (s.writeBack i d v) := by
  rw [writeUnary_legal f hb, hf]; rfl

/-- F3 with role write, completed. -/
theorem writeBinary_writes {i : Instr} {d : Reg} {b c s vb vc v} (f : Value → Value → Except Exn Value) (hb : s.operand b = some vb) (hc : s.operand c = some vc) (hf : f vb vc = .ok v) :
   writeBinary i (.reg d) b c s f = .next (s.writeBack i d v) := by
  rw [writeBinary_legal f hb hc, hf]; rfl

/-- The test of `jt` and `jf` on numbers (R113). -/
theorem isNonzero_iff (v : Value) : isNonzero v = true ↔ v.toNat ≠ 0 := by
  have : v = 0 ↔ v.toNat = 0 := ⟨fun e => by simp [e], fun e => BitVec.eq_of_toNat_eq e⟩
  simp only [isNonzero, bne_iff_ne, ne_eq, this]

/-- A push with room (R34). -/
theorem pushWord_of_room {s : State} {w} (h : ∀ n, s.params.stackCapacity = some n → s.stack.length < n) : pushWord s w = .ok { s with stack := w :: s.stack } := by
  rcases pushWord_cases s w with ⟨_, h1⟩ | ⟨⟨n, h1, h2⟩, _⟩
  · exact h1
  · have := h n h1; omega

/-- A push on a full stack (R208). -/
theorem pushWord_of_full {s : State} {w} (h : s.params.stackCapacity = some s.stack.length) : pushWord s w = .error ⟨.stackOverflow, 3, none⟩ := by
  rcases pushWord_cases s w with ⟨h1, _⟩ | ⟨_, h1⟩
  · have := h1 _ h; omega
  · exact h1

/-- The reduction mod 32768 (R153). -/
theorem wrap_toNat (n : Nat) : (wrap n).toNat = n % 32768 := by simp [wrap]

/-- The masked complement is the 15-bit complement (R162). -/
theorem complement_eq (v : Value) : complement v = ~~~v := by
  apply BitVec.eq_of_getLsbD_eq
  intro k hk
  simp only [complement, Value.toWord, BitVec.getLsbD_setWidth, BitVec.getLsbD_and, BitVec.getLsbD_not, hk, decide_true, Bool.true_and]
  have : (0x7FFF#16).getLsbD k = true := by
    have : ∀ k < 15, (0x7FFF#16).getLsbD k = true := by decide
    exact this k hk
  have h16 : k < 16 := by omega
  simp [this, hk, h16]

/-- `pc` past an instruction, where it stays in range (R26). -/
theorem pc_add_toNat {s : State} {n : Nat} (h : s.pc.toNat + n ≤ 32768) : (s.pc + BitVec.ofNat 16 n).toNat = s.pc.toNat + n := by
  simp only [BitVec.toNat_add, BitVec.toNat_ofNat]; omega

/-- The stack bound as a statement about numbers (R34). -/
theorem stackWithinCapacity_iff (s : State) : s.stackWithinCapacity = true ↔ ∀ n, s.params.stackCapacity = some n → s.stack.length ≤ n := by
  unfold State.stackWithinCapacity
  cases s.params.stackCapacity <;> simp

end Sys2Proof.Machine
end

