-- ==== Sys2Proof/Laws/Frames.lean ====
section
/-! SUPPORT. What an effect leaves alone, one lemma for each item of the state. -/

namespace Sys2Proof.Machine

/-- The status after an effect (R32). -/
theorem effect_status {i s t} (h : Effect i s t) (hr : s.status = .running) : t.status = .running ∨ (t.status = .halted ∧ (i = .halt ∨ (i = .ret ∧ s.stack = [] ∧ s.params.retOnEmpty = .halt))) := by
  cases i
  case halt => right; subst h; exact ⟨rfl, .inl rfl⟩
  case noop => left; subst h; exact hr
  case ret =>
    rcases h with ⟨w, rest, _, rfl⟩ | ⟨h1, h2, rfl⟩
    · left; exact hr
    · right; exact ⟨rfl, .inr ⟨rfl, h1, h2⟩⟩
  case jt a b => obtain ⟨va, vb, _, _, rfl⟩ := h; left; split <;> exact hr
  case jf a b => obtain ⟨va, vb, _, _, rfl⟩ := h; left; split <;> exact hr
  case in_ a =>
    obtain ⟨d, _, ⟨_, rfl⟩ | ⟨c, rest, v, _, _, rfl⟩⟩ := h <;> exact .inl hr
  case set => obtain ⟨d, vb, _, _, rfl⟩ := h; exact .inl hr
  case not => obtain ⟨d, vb, _, _, rfl⟩ := h; exact .inl hr
  case rmem => obtain ⟨d, vb, v, _, _, _, rfl⟩ := h; exact .inl hr
  case mod => obtain ⟨d, vb, v, _, _, _, _, rfl⟩ := h; exact .inl hr
  case push => obtain ⟨d, _, _, rfl⟩ := h; exact .inl hr
  case call => obtain ⟨d, _, _, rfl⟩ := h; exact .inl hr
  case pop => obtain ⟨d, w, rest, v, _, _, _, rfl⟩ := h; exact .inl hr
  case jmp => obtain ⟨d, _, rfl⟩ := h; exact .inl hr
  case out => obtain ⟨d, _, rfl⟩ := h; exact .inl hr
  case wmem => obtain ⟨d, _, _, _, rfl⟩ := h; exact .inl hr
  all_goals obtain ⟨d, vb, vc, _, _, _, rfl⟩ := h; exact .inl hr

/-- Only the destination changes. -/
theorem eq_of_writeBack_reg_ne {s : State} {i d v} {r : Reg} (h : (s.writeBack i d v).reg r ≠ s.reg r) : r = d := by
  by_contra hne; exact h (setReg_reg_of_ne s v hne)

/-- The registers after an effect (R24). -/
theorem effect_reg {i s t} (h : Effect i s t) (r : Reg) (hr : t.reg r ≠ s.reg r) : i.opcode.toNat ∈ [1, 3, 4, 5, 9, 10, 11, 12, 13, 14, 15, 20] ∧ i.args.head? = some (.reg r) := by
  cases i
  case halt => subst h; exact absurd rfl hr
  case noop => subst h; exact absurd rfl hr
  case ret => rcases h with ⟨w, rest, _, rfl⟩ | ⟨h1, h2, rfl⟩ <;> exact absurd rfl hr
  case jt a b => obtain ⟨va, vb, _, _, rfl⟩ := h; split at hr <;> exact absurd rfl hr
  case jf a b => obtain ⟨va, vb, _, _, rfl⟩ := h; split at hr <;> exact absurd rfl hr
  case in_ a =>
    obtain ⟨d, rfl, ⟨_, rfl⟩ | ⟨c, rest, v, _, _, rfl⟩⟩ := h
    · exact absurd rfl hr
    · have := eq_of_writeBack_reg_ne (s := { s with inbuf := rest }) hr; subst this; exact ⟨by simp [Instr.opcode], rfl⟩
  case set => obtain ⟨d, vb, rfl, _, rfl⟩ := h; have := eq_of_writeBack_reg_ne hr; subst this; exact ⟨by simp [Instr.opcode], rfl⟩
  case not => obtain ⟨d, vb, rfl, _, rfl⟩ := h; have := eq_of_writeBack_reg_ne hr; subst this; exact ⟨by simp [Instr.opcode], rfl⟩
  case rmem => obtain ⟨d, vb, v, rfl, _, _, rfl⟩ := h; have := eq_of_writeBack_reg_ne hr; subst this; exact ⟨by simp [Instr.opcode], rfl⟩
  case mod => obtain ⟨d, vb, v, rfl, _, _, _, rfl⟩ := h; have := eq_of_writeBack_reg_ne hr; subst this; exact ⟨by simp [Instr.opcode], rfl⟩
  case push => obtain ⟨d, _, _, rfl⟩ := h; exact absurd rfl hr
  case call => obtain ⟨d, _, _, rfl⟩ := h; exact absurd rfl hr
  case pop => obtain ⟨d, w, rest, v, rfl, _, _, rfl⟩ := h; have := eq_of_writeBack_reg_ne (s := { s with stack := rest }) hr; subst this; exact ⟨by simp [Instr.opcode], rfl⟩
  case jmp => obtain ⟨d, _, rfl⟩ := h; exact absurd rfl hr
  case out => obtain ⟨d, _, rfl⟩ := h; exact absurd rfl hr
  case wmem => obtain ⟨d, _, _, _, rfl⟩ := h; exact absurd rfl hr
  all_goals obtain ⟨d, vb, vc, rfl, _, _, rfl⟩ := h; have := eq_of_writeBack_reg_ne hr; subst this; exact ⟨by simp [Instr.opcode], rfl⟩

/-- A step changes the status alone, or is an effect. -/
theorem step_effect {s t : State} (hs : step s = .next t) : (∃ st, t = { s with status := st }) ∨
   ∃ i rest, decode s.window = .ok (i, rest) ∧ s.status = .running ∧ Effect i s t := by
  rcases step_cases hs with ⟨_, rfl⟩ | ⟨e, _, hd, rfl⟩ | ⟨i, rest, hr, hd, he⟩
  · exact .inl ⟨_, rfl⟩
  · obtain ⟨c, o, as, v, h⟩ := fetchFault_is_fault s e
    exact .inl ⟨_, h⟩
  · rcases exec_cases he with h | ⟨e, _, rfl⟩
    · exact .inr ⟨i, rest, hd, hr, h⟩
    · exact .inl ⟨_, rfl⟩

/-- The word of argument 0. -/
theorem argument_zero_word {s : State} {i rest o} (hd : decode s.window = .ok (i, rest)) (h : i.args.head? = some o) : o.toWord = s.argWord 0 := by
  obtain ⟨h1, h2, h3⟩ := window_of_decode hd
  have : i.argWords.head? = some o.toWord := by simp [Instr.argWords, h]
  rw [h3] at this
  cases hn : i.args.length with
  | zero => simp [List.length_eq_zero_iff.1 hn] at h
  | succ n =>
    rw [hn] at this
    simp [State.argWordsTo, List.head?_eq_getElem?] at this
    exact this.symm

/-- An operand that has a value is what some word classifies to. -/
theorem operand_canonical {s : State} {o v} (h : s.operand o = some v) : o.canonical = true := by
  cases o <;> simp_all [State.operand, Operand.canonical]

/-- Argument 0 as its word classifies. -/
theorem argument_zero_class {s : State} {i rest o} (hd : decode s.window = .ok (i, rest)) (h : i.args.head? = some o) (hc : o.canonical = true): o = classify (s.argWord 0) := by
  rw [← argument_zero_word hd h, classify_toWord hc]

/-- The memory after an effect (R59). -/
theorem effect_mem {i s t} (h : Effect i s t) : t.mem = s.mem ∨ ∃ a b va vb, i = .wmem a b ∧ s.operand a = some va ∧ s.operand b = some vb ∧ t.mem = s.mem.set va.toNat vb.toWord := by
  cases i
  case halt => subst h; exact .inl rfl
  case noop => subst h; exact .inl rfl
  case ret => rcases h with ⟨w, rest, _, rfl⟩ | ⟨h1, h2, rfl⟩ <;> exact .inl rfl
  case jt a b => obtain ⟨va, vb, _, _, rfl⟩ := h; split <;> exact .inl rfl
  case jf a b => obtain ⟨va, vb, _, _, rfl⟩ := h; split <;> exact .inl rfl
  case in_ a =>
    obtain ⟨d, rfl, ⟨_, rfl⟩ | ⟨c, rest, v, _, _, rfl⟩⟩ := h <;> exact .inl rfl
  case set => obtain ⟨d, vb, rfl, _, rfl⟩ := h; exact .inl rfl
  case not => obtain ⟨d, vb, rfl, _, rfl⟩ := h; exact .inl rfl
  case rmem => obtain ⟨d, vb, v, rfl, _, _, rfl⟩ := h; exact .inl rfl
  case mod => obtain ⟨d, vb, v, rfl, _, _, _, rfl⟩ := h; exact .inl rfl
  case push => obtain ⟨d, _, _, rfl⟩ := h; exact .inl rfl
  case call => obtain ⟨d, _, _, rfl⟩ := h; exact .inl rfl
  case pop => obtain ⟨d, w, rest, v, rfl, _, _, rfl⟩ := h; exact .inl rfl
  case jmp => obtain ⟨d, _, rfl⟩ := h; exact .inl rfl
  case out => obtain ⟨d, _, rfl⟩ := h; exact .inl rfl
  case wmem => obtain ⟨va, vb, h1, h2, rfl⟩ := h; exact .inr ⟨_, _, va, vb, rfl, h1, h2, rfl⟩
  all_goals obtain ⟨d, vb, vc, rfl, _, _, rfl⟩ := h; exact .inl rfl

/-- The stack after an effect (R34). -/
theorem effect_stack {i s t} (h : Effect i s t) : t.stack = s.stack ∨ (i.opcode.toNat ∈ [2,17] ∧ ∃ w : Word, t.stack = w :: s.stack ∧ (w.toNat ≤ 32767 ∨ (i.opcode.toNat = 17 ∧ w = s.pc + 2)) ∧ ∀ n, s.params.stackCapacity = some n → s.stack.length < n) ∨ (i.opcode.toNat ∈ [3,18] ∧ ∃ w, s.stack = w :: t.stack) := by
  cases i
  case halt => subst h; exact .inl rfl
  case noop => subst h; exact .inl rfl
  case ret =>
    rcases h with ⟨w, rest, h, rfl⟩ | ⟨h1, h2, rfl⟩
    · exact .inr (.inr ⟨by decide, w, h⟩)
    · exact .inl rfl
  case jt a b => obtain ⟨va, vb, _, _, rfl⟩ := h; split <;> exact .inl rfl
  case jf a b => obtain ⟨va, vb, _, _, rfl⟩ := h; split <;> exact .inl rfl
  case in_ a =>
    obtain ⟨d, rfl, ⟨_, rfl⟩ | ⟨c, rest, v, _, _, rfl⟩⟩ := h <;> exact .inl rfl
  case set => obtain ⟨d, vb, rfl, _, rfl⟩ := h; exact .inl rfl
  case not => obtain ⟨d, vb, rfl, _, rfl⟩ := h; exact .inl rfl
  case rmem => obtain ⟨d, vb, v, rfl, _, _, rfl⟩ := h; exact .inl rfl
  case mod => obtain ⟨d, vb, v, rfl, _, _, _, rfl⟩ := h; exact .inl rfl
  case push => obtain ⟨va, _, hc, rfl⟩ := h; exact .inr (.inl ⟨by simp [Instr.opcode], _, rfl, .inl (by rw [Value.toNat_toWord]; have := va.isLt; omega), hc⟩)
  case call => obtain ⟨va, _, hc, rfl⟩ := h; exact .inr (.inl ⟨by simp [Instr.opcode], _, rfl, .inr ⟨rfl, rfl⟩, hc⟩)
  case pop => obtain ⟨d, w, rest, v, rfl, h, _, rfl⟩ := h; exact .inr (.inr ⟨by simp [Instr.opcode], w, h⟩)
  case jmp => obtain ⟨d, _, rfl⟩ := h; exact .inl rfl
  case out => obtain ⟨d, _, rfl⟩ := h; exact .inl rfl
  case wmem => obtain ⟨va, vb, h1, h2, rfl⟩ := h; exact .inl rfl
  all_goals obtain ⟨d, vb, vc, rfl, _, _, rfl⟩ := h; exact .inl rfl

/-- The parameters, the input buffer and the output after an effect (R36, R187). -/
theorem effect_io {i s t} (h : Effect i s t) : t.params = s.params ∧ (t.inbuf = s.inbuf ∨ (i.opcode.toNat = 20 ∧ ∃ c, s.inbuf = c :: t.inbuf ∧ c ≤ 32767)) ∧ (t.output = s.output ∨ (i.opcode.toNat = 19 ∧ ∃ a v, i.args.head? = some a ∧ s.operand a = some v ∧ t.output = s.output ++ [v])) := by
  cases i
  case halt => subst h; exact ⟨rfl, .inl rfl, .inl rfl⟩
  case noop => subst h; exact ⟨rfl, .inl rfl, .inl rfl⟩
  case ret => rcases h with ⟨w, rest, h, rfl⟩ | ⟨h1, h2, rfl⟩ <;> exact ⟨rfl, .inl rfl, .inl rfl⟩
  case jt a b => obtain ⟨va, vb, _, _, rfl⟩ := h; split <;> exact ⟨rfl, .inl rfl, .inl rfl⟩
  case jf a b => obtain ⟨va, vb, _, _, rfl⟩ := h; split <;> exact ⟨rfl, .inl rfl, .inl rfl⟩
  case in_ a =>
    obtain ⟨d, rfl, ⟨_, rfl⟩ | ⟨c, rest, v, h, hv, rfl⟩⟩ := h
    · exact ⟨rfl, .inl rfl, .inl rfl⟩
    · exact ⟨rfl, .inr ⟨rfl, c, h, by have := v.isLt; omega⟩, .inl rfl⟩
  case set => obtain ⟨d, vb, rfl, _, rfl⟩ := h; exact ⟨rfl, .inl rfl, .inl rfl⟩
  case not => obtain ⟨d, vb, rfl, _, rfl⟩ := h; exact ⟨rfl, .inl rfl, .inl rfl⟩
  case rmem => obtain ⟨d, vb, v, rfl, _, _, rfl⟩ := h; exact ⟨rfl, .inl rfl, .inl rfl⟩
  case mod => obtain ⟨d, vb, v, rfl, _, _, _, rfl⟩ := h; exact ⟨rfl, .inl rfl, .inl rfl⟩
  case push => obtain ⟨va, _, hc, rfl⟩ := h; exact ⟨rfl, .inl rfl, .inl rfl⟩
  case call => obtain ⟨va, _, hc, rfl⟩ := h; exact ⟨rfl, .inl rfl, .inl rfl⟩
  case pop => obtain ⟨d, w, rest, v, rfl, h, _, rfl⟩ := h; exact ⟨rfl, .inl rfl, .inl rfl⟩
  case jmp => obtain ⟨d, _, rfl⟩ := h; exact ⟨rfl, .inl rfl, .inl rfl⟩
  case out => obtain ⟨d, h, rfl⟩ := h; exact ⟨rfl, .inl rfl, .inr ⟨rfl, _, d, rfl, h, rfl⟩⟩
  case wmem => obtain ⟨va, vb, h1, h2, rfl⟩ := h; exact ⟨rfl, .inl rfl, .inl rfl⟩
  all_goals obtain ⟨d, vb, vc, rfl, _, _, rfl⟩ := h; exact ⟨rfl, .inl rfl, .inl rfl⟩

/-- `pc` after an effect (R26, R27). -/
theorem effect_pc {i s t} (h : Effect i s t) : t.pc = s.pc + BitVec.ofNat 16 i.length ∨ (i.opcode.toNat ∈ [6,7,8,17] ∧ t.pc.toNat ≤ 32767) ∨ (i.opcode.toNat = 18 ∧ ∃ w ∈ s.stack, t.pc = w) ∨ (t = s ∧ s.inbuf = [] ∧ ∃ d, i = .in_ (.reg d)) := by
  have tw : ∀ v : Value, v.toWord.toNat ≤ 32767 := fun v => by rw [Value.toNat_toWord]; have := v.isLt; omega
  cases i
  case halt => subst h; exact .inl rfl
  case noop => subst h; exact .inl rfl
  case ret =>
    rcases h with ⟨w, rest, h, rfl⟩ | ⟨h1, h2, rfl⟩
    · exact .inr (.inr (.inl ⟨rfl, w, by simp [h], rfl⟩))
    · exact .inl rfl
  case jt a b => obtain ⟨va, vb, _, _, rfl⟩ := h; exact if hh : isNonzero va then .inr (.inl ⟨by simp [Instr.opcode], by simp only [hh, if_true]; exact tw _⟩) else .inl (by simp only [hh]; rfl)
  case jf a b => obtain ⟨va, vb, _, _, rfl⟩ := h; exact if hh : isNonzero va then .inl (by simp only [hh]; rfl) else .inr (.inl ⟨by simp [Instr.opcode], by simp only [hh]; exact tw _⟩)
  case in_ a =>
    obtain ⟨d, rfl, ⟨h, rfl⟩ | ⟨c, rest, v, h, hv, rfl⟩⟩ := h
    · exact .inr (.inr (.inr ⟨rfl, h, d, rfl⟩))
    · exact .inl rfl
  case set => obtain ⟨d, vb, rfl, _, rfl⟩ := h; exact .inl rfl
  case not => obtain ⟨d, vb, rfl, _, rfl⟩ := h; exact .inl rfl
  case rmem => obtain ⟨d, vb, v, rfl, _, _, rfl⟩ := h; exact .inl rfl
  case mod => obtain ⟨d, vb, v, rfl, _, _, _, rfl⟩ := h; exact .inl rfl
  case push => obtain ⟨va, _, hc, rfl⟩ := h; exact .inl rfl
  case call => obtain ⟨va, _, hc, rfl⟩ := h; exact .inr (.inl ⟨by simp [Instr.opcode], tw _⟩)
  case pop => obtain ⟨d, w, rest, v, rfl, h, _, rfl⟩ := h; exact .inl rfl
  case jmp => obtain ⟨d, _, rfl⟩ := h; exact .inr (.inl ⟨by simp [Instr.opcode], tw _⟩)
  case out => obtain ⟨d, h, rfl⟩ := h; exact .inl rfl
  case wmem => obtain ⟨va, vb, h1, h2, rfl⟩ := h; exact .inl rfl
  all_goals obtain ⟨d, vb, vc, rfl, _, _, rfl⟩ := h; exact .inl rfl

end Sys2Proof.Machine
end

