-- ==== Sys2Proof/Laws/Tools.lean ====
section
/-! SUPPORT. The host tools at the boundary: the breakpoint set, the run under a debugger, and the shown arguments. -/

namespace Sys2Proof.Machine

/-- One more step of a run. -/
theorem run_succ (M : Host.Core) (k) (s t : M.State) (h : M.step s = .next t) : M.run (k+1) s = M.run k t := by
  simp [Host.Core.run, h]

/-- What a toggle leaves in the set (R223). -/
theorem mem_toggleIn (n m : Nat) (l : List Nat) (h : l.Pairwise (· < ·)) : m ∈ toggleIn n l ↔ (m ∈ l ∧ m ≠ n ∨ m = n ∧ n ∉ l) := by
  induction l with
  | nil => simp [toggleIn]
  | cons b t ih =>
    rw [List.pairwise_cons] at h
    have ih := ih h.2
    simp only [toggleIn]
    split
    · have : n ∉ b :: t := by
        intro hm; rcases List.mem_cons.1 hm with rfl | hm
        · omega
        · have := h.1 _ hm; omega
      simp only [List.mem_cons] at this ⊢
      constructor
      · rintro (rfl | h')
        · exact .inr ⟨rfl, this⟩
        · exact .inl ⟨h', by rintro rfl; exact this h'⟩
      · rintro (h' | h')
        · exact .inr h'.1
        · exact .inl h'.1
    · split
      · rename_i h1 h2; subst h2
        simp only [List.mem_cons]
        constructor
        · intro hm; exact .inl ⟨.inr hm, by rintro rfl; have := h.1 _ hm; omega⟩
        · rintro (⟨rfl | hm, h3⟩ | ⟨_, h3⟩)
          · exact absurd rfl h3
          · exact hm
          · exact absurd (by simp) h3
      · simp only [List.mem_cons, ih]
        rename_i h1 h2
        constructor
        · rintro (rfl | ⟨h3, h4⟩ | ⟨rfl, h4⟩)
          · left; exact ⟨by simp, fun e => h2 e.symm⟩
          · exact .inl ⟨.inr h3, h4⟩
          · exact .inr ⟨rfl, by rintro (h5 | h5); exacts [h2 h5, h4 h5]⟩
        · rintro (⟨rfl | h3, h4⟩ | ⟨rfl, h4⟩)
          · simp
          · exact .inr (.inl ⟨h3, h4⟩)
          · exact .inr (.inr ⟨rfl, fun h5 => h4 (.inr h5)⟩)

/-- A toggle keeps the list rising. -/
theorem toggleIn_rising (n : Nat) (l : List Nat) (h : l.Pairwise (· < ·)) : (toggleIn n l).Pairwise (· < ·) := by
  induction l with
  | nil => simp [toggleIn]
  | cons b t ih =>
    have h' := h
    rw [List.pairwise_cons] at h
    simp only [toggleIn]
    split
    · refine List.pairwise_cons.2 ⟨?_, h'⟩
      intro x hx; rcases List.mem_cons.1 hx with rfl | hx
      · assumption
      · have := h.1 _ hx; omega
    · split
      · exact h.2
      · refine List.pairwise_cons.2 ⟨?_, ih h.2⟩
        intro x hx
        rcases (mem_toggleIn n x t h.2).1 hx with ⟨h3, _⟩ | ⟨rfl, _⟩
        · exact h.1 _ h3
        · omega

/-- Two toggles give the set back (R225). -/
theorem toggleIn_toggleIn (n : Nat) (l : List Nat) (h : l.Pairwise (· < ·)) : toggleIn n (toggleIn n l) = l := by
  induction l with
  | nil => simp [toggleIn]
  | cons b t ih =>
    rw [List.pairwise_cons] at h
    simp only [toggleIn]
    split
    · simp [toggleIn]
    · split
      · rename_i h1 h2; subst h2
        cases t with
        | nil => simp [toggleIn]
        | cons c u => have := h.1 c (by simp); simp [toggleIn, this]
      · rename_i h1 h2
        simp only [toggleIn]
        rw [if_neg h1, if_neg h2, ih h.2]

/-- A shown argument encodes as the word it was shown from (R92, R93). -/
theorem render_toWord (w : Word) : (render w).toWord = w := by
  have := toWord_classify w
  unfold render
  split <;> rename_i h <;> rw [h] at this
  · rw [← this]; simp [Rendered.toWord, Operand.toWord, Value.toWord]
  · exact this
  · simp only [Operand.toWord] at this; subst this; simp [Rendered.toWord]

end Sys2Proof.Machine
end

