-- ==== Sys2Proof/Tests/Slice0.lean ====
section
/-! SUPPORT. Tests of the model's own: ill-formed instructions, words written out from the encoding tables, one step at a
time against the vectors of 95_test_vectors.md (each named T or V), and a witness for the hypotheses of each statement. -/

namespace Sys2Proof.Tests

open Sys2Proof.Machine

/-! ### Helpers -/

/-- The reset state with words from an address on. -/
def wordsAt (a : Nat) (ws : List Word) : State := State.placeWords State.reset a ws

/-- The reset state with words from address 0 on. -/
def boot (ws : List Word) : State := wordsAt 0 ws

/-- The state after one step. -/
def after (s : State) : State :=
  match step s with
  | .next t => t
  | .fault _ => s
  | .refused _ => s

/-- The record of a faulted state. -/
def record (s : State) : Option FaultRecord :=
  match s.status with
  | .faulted r => some r
  | .running => none
  | .halted => none

/-- A checked step gives the next state of a witness. -/
theorem exists_next {s : State} {P : State → Prop} [DecidablePred P]
    (h : (match step s with | .next t => decide (P t) | .fault _ => false | .refused _ => false) = true) :
    ∃ t, step s = .next t ∧ P t := by
  cases hs : step s with
  | next t => rw [hs] at h; exact ⟨t, rfl, of_decide_eq_true h⟩
  | fault r => rw [hs] at h; cases h
  | refused r => rw [hs] at h; cases h

/-! ### Ill-formed instructions: one for each check of `Instr.wellFormed` -/

theorem test_wf_read : (Instr.push (.invalid 32776)).wellFormed = false ∧ (Instr.jmp (.invalid 65535)).wellFormed = false ∧
    (Instr.call (.invalid 32776)).wellFormed = false ∧ (Instr.out (.invalid 40000)).wellFormed = false := by decide

theorem test_wf_dest : (Instr.pop (.lit 9)).wellFormed = false ∧ (Instr.in_ (.lit 7)).wellFormed = false ∧
    (Instr.pop (.invalid 32776)).wellFormed = false ∧ (Instr.in_ (.invalid 32776)).wellFormed = false := by decide

theorem test_wf_read_read : (Instr.jt (.invalid 32776) (.lit 0)).wellFormed = false ∧
    (Instr.jt (.lit 1) (.invalid 40000)).wellFormed = false ∧ (Instr.jf (.invalid 32776) (.lit 0)).wellFormed = false ∧
    (Instr.jf (.lit 0) (.invalid 32776)).wellFormed = false ∧ (Instr.wmem (.invalid 32776) (.lit 0)).wellFormed = false ∧
    (Instr.wmem (.lit 100) (.invalid 40000)).wellFormed = false := by decide

theorem test_wf_dest_read : (Instr.set (.lit 5) (.lit 10)).wellFormed = false ∧
    (Instr.set (.reg 0) (.invalid 32776)).wellFormed = false ∧ (Instr.not (.lit 2) (.lit 0)).wellFormed = false ∧
    (Instr.not (.reg 0) (.invalid 32776)).wellFormed = false ∧ (Instr.rmem (.lit 0) (.lit 0)).wellFormed = false ∧
    (Instr.rmem (.reg 0) (.invalid 32776)).wellFormed = false := by decide

theorem test_wf_binary_dest : (Instr.eq (.lit 3) (.lit 1) (.lit 1)).wellFormed = false ∧
    (Instr.gt (.lit 3) (.lit 1) (.lit 1)).wellFormed = false ∧ (Instr.add (.lit 5) (.lit 1) (.lit 1)).wellFormed = false ∧
    (Instr.mult (.lit 3) (.lit 1) (.lit 1)).wellFormed = false ∧ (Instr.mod (.lit 5) (.lit 7) (.lit 0)).wellFormed = false ∧
    (Instr.and (.lit 3) (.lit 1) (.lit 1)).wellFormed = false ∧ (Instr.or (.lit 3) (.lit 1) (.lit 1)).wellFormed = false := by
  decide

theorem test_wf_binary_sources : (Instr.eq (.reg 0) (.invalid 32776) (.lit 1)).wellFormed = false ∧
    (Instr.gt (.reg 0) (.lit 1) (.invalid 32776)).wellFormed = false ∧
    (Instr.add (.reg 0) (.invalid 32776) (.lit 1)).wellFormed = false ∧
    (Instr.mult (.reg 0) (.lit 1) (.invalid 32776)).wellFormed = false ∧
    (Instr.mod (.reg 0) (.invalid 40000) (.lit 0)).wellFormed = false ∧
    (Instr.and (.reg 0) (.lit 1) (.invalid 32776)).wellFormed = false ∧
    (Instr.or (.reg 0) (.invalid 32776) (.lit 1)).wellFormed = false := by decide

theorem test_canonical : (Operand.invalid 32775).canonical = false ∧ (Operand.invalid 32776).canonical = true := by decide

/-! ### One word sequence for each row of the opcode table (R73), with arguments of both modes (R75) -/

theorem test_decode_halt : decode [0, 7] = .ok (.halt, [7]) := rfl
theorem test_decode_set : decode [1, 32768, 4] = .ok (.set (.reg 0) (.lit 4), []) := rfl
theorem test_decode_push : decode [2, 32770] = .ok (.push (.reg 2), []) := rfl
theorem test_decode_pop : decode [3, 32775] = .ok (.pop (.reg 7), []) := rfl
theorem test_decode_eq : decode [4, 32768, 32769, 0] = .ok (.eq (.reg 0) (.reg 1) (.lit 0), []) := rfl
theorem test_decode_gt : decode [5, 32768, 32767, 32775] = .ok (.gt (.reg 0) (.lit 32767) (.reg 7), []) := rfl
theorem test_decode_jmp : decode [6, 32771] = .ok (.jmp (.reg 3), []) := rfl
theorem test_decode_jt : decode [7, 32768, 20] = .ok (.jt (.reg 0) (.lit 20), []) := rfl
theorem test_decode_jf : decode [8, 32769, 32770] = .ok (.jf (.reg 1) (.reg 2), []) := rfl
theorem test_decode_add : decode [9, 32768, 32768, 32767] = .ok (.add (.reg 0) (.reg 0) (.lit 32767), []) := rfl
theorem test_decode_mult : decode [10, 32768, 181, 181] = .ok (.mult (.reg 0) (.lit 181) (.lit 181), []) := rfl
theorem test_decode_mod : decode [11, 32768, 7, 32769] = .ok (.mod (.reg 0) (.lit 7) (.reg 1), []) := rfl
theorem test_decode_and : decode [12, 32770, 32768, 32769] = .ok (.and (.reg 2) (.reg 0) (.reg 1), []) := rfl
theorem test_decode_or : decode [13, 32771, 12, 10] = .ok (.or (.reg 3) (.lit 12) (.lit 10), []) := rfl
theorem test_decode_not : decode [14, 32772, 32769] = .ok (.not (.reg 4) (.reg 1), []) := rfl
theorem test_decode_rmem : decode [15, 32768, 100] = .ok (.rmem (.reg 0) (.lit 100), []) := rfl
theorem test_decode_wmem : decode [16, 100, 32769] = .ok (.wmem (.lit 100) (.reg 1), []) := rfl
theorem test_decode_call : decode [17, 32768] = .ok (.call (.reg 0), []) := rfl
theorem test_decode_ret : decode [18] = .ok (.ret, []) := rfl
theorem test_decode_out : decode [19, 65] = .ok (.out (.lit 65), []) := rfl
theorem test_decode_in : decode [20, 32768, 19] = .ok (.in_ (.reg 0), [19]) := rfl
theorem test_decode_noop : decode [21] = .ok (.noop, []) := rfl

/-- V6: an invalid word stays an argument of its instruction; D10: the opcode word is not resolved. -/
theorem test_decode_rejects : decode [2, 32776] = .ok (.push (.invalid 32776), []) ∧
    decode [32768] = .error (.unknownOpcode 32768) ∧ decode [9, 32768] = .error (.truncated 9 .write [32768]) ∧
    decode [] = .error .noOpcode := ⟨rfl, rfl, rfl, rfl⟩

/-- V2: the 11 words of `set r0, 4; set r1, 1; push r0; push r1; halt`. -/
theorem test_encode : encode (.set (.reg 0) (.lit 4)) ++ encode (.set (.reg 1) (.lit 1)) ++ encode (.push (.reg 0)) ++
    encode (.push (.reg 1)) ++ encode .halt = [1, 32768, 4, 1, 32769, 1, 2, 32768, 2, 32769, 0] := by decide

/-- The table's numbering: the first word in bits 15..0, the next in bits 31..16. -/
theorem test_table_word : decodeTableWord 48 (1 + 32768 * 65536 + 4 * 4294967296) = some (.set (.reg 0) (.lit 4)) ∧
    (after (State.reset.withFetchWord 48 (1 + 32768 * 65536 + 4 * 4294967296))).reg 0 = 4 ∧
    decodeTableWord 16 22 = none := by decide

/-! ### Control transfer, halt and noop (T1) -/

/-- T1.1, V1. -/
theorem test_halt : (after (boot [0])).status = .halted ∧ (after (boot [0])).pc = 1 := by decide
/-- T8.7. -/
theorem test_halt_last_word : (after { wordsAt 32767 [0] with pc := 32767 }).status = .halted ∧
    (after { wordsAt 32767 [0] with pc := 32767 }).pc = 32768 := by decide
/-- T1.3. -/
theorem test_jmp : (after ((boot [6, 32771]).setReg 3 9)).pc = 9 := by decide
/-- T1.7, T1.6. -/
theorem test_jt : (after ((boot [7, 32768, 20]).setReg 0 32767)).pc = 20 ∧ (after (boot [7, 0, 20])).pc = 3 := by decide
/-- T1.19. -/
theorem test_jt_invalid : record (after (boot [7, 1, 40000])) = some ⟨.invalidOperand, 0, some 7, [1, 40000], some 40000⟩ := by
  decide
/-- T1.10, T1.9. -/
theorem test_jf : (after ((boot [8, 32769, 32770]).setReg 2 44)).pc = 44 ∧ (after (boot [8, 5, 20])).pc = 3 := by decide
/-- T1.21. -/
theorem test_call : (after { wordsAt 32766 [17, 5] with pc := 32766 }).pc = 5 ∧
    (after { wordsAt 32766 [17, 5] with pc := 32766 }).stack = [32768] := by decide
/-- T1.20. -/
theorem test_call_full : record (after { boot [17, 100] with stack := [3], params := ⟨some 1, .halt⟩ }) =
    some ⟨.stackOverflow, 0, some 17, [100], none⟩ := by decide
/-- T1.14 (top first here), T1.17. -/
theorem test_ret : (after { boot [18] with stack := [55, 9] }).pc = 55 ∧
    (after { boot [18] with stack := [55, 9] }).stack = [9] ∧
    record (after (after { boot [18] with stack := [32768] })) = some ⟨.addressError, 32768, none, [], some 32768⟩ := by decide
/-- T1.15, T1.16. -/
theorem test_ret_empty : (after (boot [18])).status = .halted ∧ (after (boot [18])).pc = 1 ∧
    record (after { boot [18] with params := ⟨none, .fault⟩ }) = some ⟨.stackUnderflow, 0, some 18, [], none⟩ := by decide
/-- T1.18, T8.8. -/
theorem test_noop : after (boot [21]) = { boot [21] with pc := 1 } ∧
    (after { wordsAt 32767 [21] with pc := 32767 }).pc = 32768 := by decide

/-! ### Register move and stack (T2) -/

/-- T2.2, T2.4. -/
theorem test_set : (after ((boot [1, 32775, 32773]).setReg 5 123)).reg 7 = 123 ∧
    record (after (boot [1, 5, 10])) = some ⟨.invalidDestination, 0, some 1, [5], some 5⟩ := by decide
/-- T2.7 (top first here). -/
theorem test_push : (after ((State.setReg { boot [2, 32770] with stack := [1] } 2 9))).stack = [9, 1] := by decide
/-- T2.12. -/
theorem test_push_full : record (after { boot [2, 5] with stack := [2, 1], params := ⟨some 2, .halt⟩ }) =
    some ⟨.stackOverflow, 0, some 2, [5], none⟩ := by decide
/-- T2.8 (top first here). -/
theorem test_pop : (after { boot [3, 32768] with stack := [9, 1] }).reg 0 = 9 ∧
    (after { boot [3, 32768] with stack := [9, 1] }).stack = [1] := by decide
/-- T2.10, V3. -/
theorem test_pop_faults :
    after { boot [3, 32768] with stack := [32768] } =
      { boot [3, 32768] with stack := [32768], status := .faulted ⟨.registerRange, 0, some 3, [32768], some 32768⟩ } ∧
    record (after (boot [3, 32768])) = some ⟨.stackUnderflow, 0, some 3, [32768], none⟩ := by decide

/-! ### Comparison (T3) -/

/-- T3.3, T3.2. -/
theorem test_eq : (after (boot [4, 32768, 32769, 0])).reg 0 = 1 ∧ (after (boot [4, 32768, 5, 6])).reg 0 = 0 := by decide
/-- T3.7, T3.8. -/
theorem test_gt_unsigned : (after (boot [5, 32768, 32767, 0])).reg 0 = 1 ∧
    (after ((boot [5, 32768, 0, 32767]).setReg 0 1)).reg 0 = 0 := by decide
/-- T3.5. -/
theorem test_gt_strict : (after ((boot [5, 32768, 5, 5]).setReg 0 1)).reg 0 = 0 := by decide

/-! ### Arithmetic (T4) -/

/-- T4.3, T4.20. -/
theorem test_add_wraps : (after (boot [9, 32768, 32767, 32767])).reg 0 = 32766 ∧
    (after ((boot [9, 32768, 32768, 32768]).setReg 0 4)).reg 0 = 8 := by decide
/-- T4.17. -/
theorem test_add_first_fault : record (after (boot [9, 5, 40000, 0])) = some ⟨.invalidDestination, 0, some 9, [5], some 5⟩ := by
  decide
/-- T4.9, T4.10. -/
theorem test_mult_wraps : (after (boot [10, 32768, 181, 181])).reg 0 = 32761 ∧
    (after (boot [10, 32768, 200, 200])).reg 0 = 7232 := by decide
/-- T4.11, T4.12. -/
theorem test_mod : (after (boot [11, 32768, 10, 3])).reg 0 = 1 ∧ (after (boot [11, 32768, 3, 10])).reg 0 = 3 := by decide
/-- T4.15 (V5), T4.19. -/
theorem test_mod_faults : after ((boot [11, 32768, 7, 0]).setReg 0 9) =
      { (boot [11, 32768, 7, 0]).setReg 0 9 with
        status := .faulted ⟨.arithmeticError, 0, some 11, [32768, 7, 0], none⟩ } ∧
    record (after (boot [11, 32768, 40000, 0])) = some ⟨.invalidOperand, 0, some 11, [32768, 40000], some 40000⟩ := by decide

/-! ### Bitwise logic (T5) -/

/-- T5.1, T5.3. -/
theorem test_and : (after (boot [12, 32768, 12, 10])).reg 0 = 8 ∧ (after (boot [12, 32768, 21845, 10922])).reg 0 = 0 := by decide
/-- T5.4, T5.5. -/
theorem test_or : (after (boot [13, 32768, 12, 10])).reg 0 = 14 ∧
    (after (boot [13, 32768, 21845, 10922])).reg 0 = 32767 := by decide
/-- T5.11, T5.9. -/
theorem test_not : (after ((boot [14, 32772, 32769]).setReg 1 232)).reg 4 = 32535 ∧
    (after (boot [14, 32768, 21845])).reg 0 = 10922 := by decide

/-! ### Memory load and store (T6) -/

/-- T6.2, T6.3. -/
theorem test_rmem : (after ((State.placeWords (boot [15, 32768, 32769]) 100 [7]).setReg 1 100)).reg 0 = 7 ∧
    (after (boot [15, 32768, 0])).reg 0 = 15 := by decide
/-- T6.4. -/
theorem test_rmem_range : record (after (boot [15, 32768, 1])) = some ⟨.registerRange, 0, some 15, [32768, 1], some 32768⟩ := by
  decide
/-- T6.8, T6.9. -/
theorem test_wmem : (after (((boot [16, 32768, 32769]).setReg 0 200).setReg 1 9)).read 200 = 9 ∧
    (after (boot [16, 32767, 32767])).read 32767 = 32767 := by decide
/-- T6.10, and a store of 0 leaves no entry (R37). -/
theorem test_wmem_own_words : (after (boot [16, 0, 21])).read 0 = 21 ∧ (after (boot [16, 0, 21])).pc = 3 ∧
    (after (boot [16, 0, 0])).mem = [] := by decide

/-! ### Character input and output (T7) -/

/-- T7.2, T7.3. -/
theorem test_out : (after ((boot [19, 32768]).setReg 0 10)).output = [10] ∧ (after (boot [19, 32767])).output = [32767] := by
  decide
/-- T7.4, T7.8. -/
theorem test_in : (after { boot [20, 32768] with inbuf := [104, 105, 10] }).reg 0 = 104 ∧
    (after { boot [20, 32768] with inbuf := [104, 105, 10] }).inbuf = [105, 10] ∧
    after { boot [20, 32768] with inbuf := [40000, 10] } = { boot [20, 32768] with
      inbuf := [40000, 10], status := .faulted ⟨.registerRange, 0, some 20, [32768], some 40000⟩ } := by decide
/-- T7.5, T7.9, T7.7. -/
theorem test_in_blocked : after (boot [20, 32768]) = boot [20, 32768] ∧ (boot [20, 32768]).lineRequest = true ∧
    (boot [20, 7]).lineRequest = false ∧ (after ((boot [20, 32768]).primeLine [])).reg 0 = 10 := by decide

/-! ### Fetch and fault priority (T8), the host's tools (V4, V8) -/

/-- T8.1, T8.4, T8.6. -/
theorem test_fetch_faults : record (after (boot [22])) = some ⟨.unknownOpcode, 0, some 22, [], some 22⟩ ∧
    record (after (boot [23, 40000])) = some ⟨.unknownOpcode, 0, some 23, [], some 23⟩ ∧
    record (after { wordsAt 32766 [9, 32768] with pc := 32766 }) =
      some ⟨.addressError, 32766, some 9, [32768], some 32768⟩ := by decide

/-- V4. -/
theorem test_toggle : toggleIn 10 [] = [10] ∧ toggleIn 10 (toggleIn 10 []) = [] := by decide

/-- V8: the first triples of the listing of V2, and their words. -/
theorem test_disassemble : disassembleFrom "?" (boot [1, 32768, 4, 2, 32769, 22]).mem 0 4 =
    [⟨0, "set", [.register 0, .number 4]⟩, ⟨3, "push", [.register 1]⟩, ⟨5, "?", []⟩, ⟨6, "halt", []⟩] ∧
    assemble ⟨0, "set", [.register 0, .number 4]⟩ = some [1, 32768, 4] := by decide

/-- R53: the low byte first. -/
theorem test_bytes : wordsOfBytes [19, 0, 65, 0, 0, 128] = some [19, 65, 32768] ∧ wordsOfBytes [19] = none := by decide

/-- R186, D21: a path in one word, and the usage cases. -/
theorem test_save_lines : splitBlanks [] [115, 97, 118, 101, 32, 32, 102] = [[115, 97, 118, 101], [102]] ∧
    splitBlanks [] [32, 115, 97, 118, 101] = [[115, 97, 118, 101]] ∧ splitBlanks [] [103, 111] = [[103, 111]] ∧
    parseCommand [98, 32, 49, 48] = .toggle 10 := by decide

/-! ### Witnesses: for each statement with hypotheses, a state and operands that meet them, each clause at a boundary -/

theorem witness_ResetFromImage : (List.replicate 32768 (1 : Word)).length ≤ 32768 ∧
    (List.replicate 32768 (1 : Word))[32767]? = some 1 ∧ [(19 : Word), 65, 0].length ≤ 3 ∧
    [(19 : Word), 65, 0][0]? = some 19 :=
  ⟨by rw [List.length_replicate], by rw [List.getElem?_replicate]; rfl, by decide, rfl⟩

theorem witness_ByteImageLoad : [(19 : BitVec 8)].length % 2 = 1 ∧ 32768 < (List.replicate 32769 (0 : Word)).length ∧
    [(19 : BitVec 8), 128].length % 2 = 0 ∧ [(19 : BitVec 8), 128][2 * 0]? = some 19 ∧
    [(19 : BitVec 8), 128][2 * 0 + 1]? = some 128 :=
  ⟨by decide, by rw [List.length_replicate]; decide, by decide, rfl, rfl⟩

theorem witness_ArgumentWordClasses : (32767#16).toNat ≤ 32767 ∧ 32768 ≤ (32768#16).toNat ∧ (32768#16).toNat ≤ 32775 ∧
    32768 ≤ (32775#16).toNat ∧ (32775#16).toNat ≤ 32775 ∧ 32776 ≤ (32776#16).toNat ∧ 32776 ≤ (65535#16).toNat := by decide

theorem witness_OperandResolution : (32767#16).toNat ≤ 32767 ∧ (32768#16).toNat = 32768 + (0 : Reg).val ∧
    (32775#16).toNat = 32768 + (7 : Reg).val ∧ 32776 ≤ (32776#16).toNat := by decide

/-- A well-formed instruction of every constructor. -/
def wellFormedOnes : List Instr :=
  [.halt, .set (.reg 7) (.lit 32767), .push (.lit 32767), .pop (.reg 7), .eq (.reg 0) (.reg 7) (.lit 0),
    .gt (.reg 7) (.lit 32767) (.reg 0), .jmp (.lit 32767), .jt (.reg 7) (.lit 0), .jf (.lit 0) (.reg 7)] ++
  [.add (.reg 0) (.reg 0) (.lit 32767), .mult (.reg 7) (.lit 181) (.lit 181), .mod (.reg 0) (.lit 7) (.lit 0),
    .and (.reg 7) (.reg 0) (.reg 1), .or (.reg 0) (.lit 0) (.reg 7), .not (.reg 7) (.lit 0)] ++
  [.rmem (.reg 0) (.lit 32767), .wmem (.lit 32767) (.reg 7), .call (.lit 0), .ret, .out (.reg 7), .in_ (.reg 0), .noop]

theorem witness_DecodeEncodeRoundTrip : ∀ i ∈ wellFormedOnes, i.wellFormed = true := by decide

theorem witness_EncodeDecodeRoundTrip : decode [4, 32775, 32776, 65535, 9] =
    .ok (.eq (.reg 7) (.invalid 32776) (.invalid 65535), [9]) := rfl

theorem witness_UnknownOpcodeFaults : (boot [22]).status = .running ∧ (boot [22]).pc.toNat < 32768 ∧
    22 ≤ (boot [22]).opcodeWord.toNat ∧ ({ wordsAt 32767 [65535] with pc := 32767 } : State).pc.toNat < 32768 ∧
    22 ≤ ({ wordsAt 32767 [65535] with pc := 32767 } : State).opcodeWord.toNat := by decide

/-- An instruction whose argument `k` would lie at 32768, with registers as its earlier arguments. -/
def cut (op k : Nat) : State :=
  { wordsAt (32767 - k) (BitVec.ofNat 16 op :: List.replicate k 32768) with pc := BitVec.ofNat 16 (32767 - k) }

/-- An instruction whose argument `k` is `w`, with registers as its earlier arguments. -/
def withArg (op k : Nat) (w : Word) : State := boot (BitVec.ofNat 16 op :: (List.replicate k 32768 ++ [w]))

theorem witness_DecodeFaults_opcode_fetch : ({ State.reset with pc := 32768 } : State).status = .running ∧
    32768 ≤ ({ State.reset with pc := 32768 } : State).pc.toNat := by decide

theorem witness_DecodeFaults_argument_fetch : ∀ row ∈ opcodeMap, ∀ k < row.arity, (cut row.code k).status = .running ∧
    (cut row.code k).pc.toNat < 32768 ∧ (cut row.code k).opcodeWord.toNat = row.code ∧
    (∀ j < k, argLegal row.role j ((cut row.code k).argWord j)) ∧ (cut row.code k).pc.toNat + 1 + k = 32768 := by decide

theorem witness_DecodeFaults_invalid : ∀ row ∈ opcodeMap, ∀ k < row.arity, (withArg row.code k 32776).status = .running ∧
    (withArg row.code k 32776).opcodeWord.toNat = row.code ∧ (withArg row.code k 32776).pc.toNat + 1 + k < 32768 ∧
    (∀ j < k, argLegal row.role j ((withArg row.code k 32776).argWord j)) ∧
    32776 ≤ ((withArg row.code k 32776).argWord k).toNat := by decide

theorem witness_DecodeFaults_destination : ∀ row ∈ opcodeMap, row.role = .write → 0 < row.arity ∧
    (withArg row.code 0 32767).opcodeWord.toNat = row.code ∧ ((withArg row.code 0 32767).argWord 0).toNat ≤ 32767 := by decide

theorem witness_DecodeFaultsOfEveryOpcode : opcodeMap.length = 22 ∧
    (⟨11, "mod", 3, .write⟩ : OpcodeRow) ∈ opcodeMap := by decide

theorem witness_IllegalArgumentsFault : (Instr.pop (.lit 0)).wellFormed = false ∧
    (Instr.jt (.lit 1) (.invalid 32776)).wellFormed = false := by decide

theorem witness_StepRunsDecodedInstruction : (boot [21]).status = .running ∧
    decode (boot [21]).window = .ok (.noop, [0, 0, 0]) := ⟨rfl, by decide⟩

theorem witness_StepRunsWordsAtPc : ∃ (s : State) (i : Instr), s.status = .running ∧ i.wellFormed = true ∧
    s.pc.toNat = 32764 ∧ ∀ k w, (encode i)[k]? = some w → s.pc.toNat + k < 32768 ∧ s.read (s.pc.toNat + k) = w := by
  refine ⟨{ wordsAt 32764 [9, 32768, 32769, 7] with pc := 32764 }, .add (.reg 0) (.reg 1) (.lit 7), rfl, rfl, rfl, ?_⟩
  intro k w h
  rcases k with _ | _ | _ | _ | k
  · cases h; decide
  · cases h; decide
  · cases h; decide
  · cases h; decide
  · cases h

theorem witness_TerminalStatesAndWhoHalts_terminal : ({ State.reset with status := .halted } : State).status = .halted ∧
    ∃ r, (after (boot [22])).status = .faulted r := ⟨rfl, ⟨.unknownOpcode, 0, some 22, [], some 22⟩, by decide⟩

theorem witness_FaultsArePrecise : (boot [11, 32768, 7, 0]).status = .running ∧
    ∃ t, step (boot [11, 32768, 7, 0]) = .next t ∧
      t.status = .faulted ⟨.arithmeticError, 0, some 11, [32768, 7, 0], none⟩ := ⟨rfl, exists_next (by decide)⟩

theorem witness_FaultCausesByOpcode :
    (∃ t, step (boot [22]) = .next t ∧ t.status = .faulted ⟨.unknownOpcode, 0, some 22, [], some 22⟩) ∧
    (∃ t, step (boot [1, 5]) = .next t ∧ t.status = .faulted ⟨.invalidDestination, 0, some 1, [5], some 5⟩) ∧
    (∃ t, step (boot [3, 32768]) = .next t ∧ t.status = .faulted ⟨.stackUnderflow, 0, some 3, [32768], none⟩) ∧
    (∃ t, step (cut 9 2) = .next t ∧
      t.status = .faulted ⟨.addressError, 32765, some 9, [32768, 32768], some 32768⟩) ∧
    (∃ t, step { State.reset with pc := 32768 } = .next t ∧
      t.status = .faulted ⟨.addressError, 32768, none, [], some 32768⟩) ∧
    (∃ t, step (boot [2, 32776]) = .next t ∧ t.status = .faulted ⟨.invalidOperand, 0, some 2, [32776], some 32776⟩) ∧
    (∃ t, step { boot [18] with params := ⟨none, .fault⟩ } = .next t ∧
      t.status = .faulted ⟨.stackUnderflow, 0, some 18, [], none⟩) :=
  ⟨exists_next (by decide), exists_next (by decide), exists_next (by decide), exists_next (by decide),
    exists_next (by decide), exists_next (by decide), exists_next (by decide)⟩

theorem witness_FaultCausesByOpcode_execute :
    (∃ t, step (boot [11, 32768, 7, 0]) = .next t ∧
      t.status = .faulted ⟨.arithmeticError, 0, some 11, [32768, 7, 0], none⟩) ∧
    (∃ t, step (boot [15, 32768, 1]) = .next t ∧
      t.status = .faulted ⟨.registerRange, 0, some 15, [32768, 1], some 32768⟩) ∧
    (∃ t, step { boot [3, 32775] with stack := [32768] } = .next t ∧
      t.status = .faulted ⟨.registerRange, 0, some 3, [32775], some 32768⟩) ∧
    (∃ t, step { boot [20, 32768] with inbuf := [32768] } = .next t ∧
      t.status = .faulted ⟨.registerRange, 0, some 20, [32768], some 32768⟩) ∧
    (∃ t, step { boot [2, 5] with params := ⟨some 0, .halt⟩ } = .next t ∧
      t.status = .faulted ⟨.stackOverflow, 0, some 2, [5], none⟩) :=
  ⟨exists_next (by decide), exists_next (by decide), exists_next (by decide), exists_next (by decide),
    exists_next (by decide)⟩

theorem witness_TerminalStatesAndWhoHalts_halting : (∃ t, step (boot [0]) = .next t ∧ t.status = .halted) ∧
    (∃ t, step (boot [18]) = .next t ∧ t.status = .halted) := ⟨exists_next (by decide), exists_next (by decide)⟩

theorem witness_RegistersWrittenByArgumentZero :
    ∃ t, step (boot [1, 32775, 4]) = .next t ∧ t.reg 7 ≠ (boot [1, 32775, 4]).reg 7 := exists_next (by decide)

theorem witness_MemoryWrittenByWmemOnly : (boot [16, 32767, 32767]).mem.wf ∧
    ∃ t, step (boot [16, 32767, 32767]) = .next t ∧ t.read 32767 ≠ (boot [16, 32767, 32767]).read 32767 :=
  ⟨by decide, exists_next (by decide)⟩

theorem witness_StackTouchedByFourOpcodes :
    (∃ t, step (boot [17, 100]) = .next t ∧ t.stack ≠ (boot [17, 100]).stack) ∧
    (∃ t, step { boot [18] with stack := [0] } = .next t ∧ t.stack ≠ [0]) :=
  ⟨exists_next (by decide), exists_next (by decide)⟩

theorem witness_InputConsumedByInOnly :
    ∃ t, step { boot [20, 32768] with inbuf := [32767] } = .next t ∧ t.inbuf ≠ [32767] := exists_next (by decide)

theorem witness_OutputProducedByOutOnly :
    ∃ t, step (boot [19, 0]) = .next t ∧ t.output ≠ (boot [19, 0]).output := exists_next (by decide)

theorem witness_SequentialPcAdvance : decode ({ wordsAt 32767 [21] with pc := 32767 } : State).window = .ok (.noop, []) ∧
    Instr.noop.opcode.toNat ∉ [6, 7, 8, 17, 18] ∧
    ({ wordsAt 32767 [21] with pc := 32767 } : State).lineRequest = false ∧
    ∃ t, step { wordsAt 32767 [21] with pc := 32767 } = .next t ∧ t.status = .running :=
  ⟨by decide, by decide, by decide, exists_next (by decide)⟩

theorem witness_EarlierOutputHasNoEffect : ∃ t, step (boot [19, 65]) = .next t ∧ t.output = [65] := exists_next (by decide)

/-- The invariant at its bounds: `pc` 32768, a stack word 32768, the stack full. -/
theorem witness_StepKeepsInvariant : State.reset.Inv ∧
    State.Inv { boot [21] with pc := 32768, stack := [32768], params := ⟨some 1, .fault⟩ } ∧
    State.Inv (cut 9 2) := by decide

theorem witness_LoadMeetsInvariant : ∃ s, loadImage Config.Params.default [19, 65, 0] = .next s := ⟨_, rfl⟩

theorem witness_MemoryPrimitives : (boot [21]).mem.wf ∧ 32768 ≤ 32768 ∧ 32767 < 32768 := by decide

theorem witness_StoreSeenByNextFetch : (boot [16, 2, 21]).mem.wf ∧ (boot [16, 2, 21]).status = .running ∧
    decode (boot [16, 2, 21]).window = .ok (.wmem (.lit 2) (.lit 21), [0]) ∧
    (∃ t, step (boot [16, 2, 21]) = .next t ∧ (wordsFrom t.mem 0 4)[2]? = some 21 ∧ (wordsFrom t.mem 0 4)[0]? = some 16) :=
  ⟨by decide, rfl, by decide, exists_next (by decide)⟩

/-- A state with registers 0 and 7 at the ends of their range, for the operands below. -/
def operands : State := State.reset.setReg 7 32767

theorem witness_operands : operands.operand (.lit 0) = some 0 ∧ operands.operand (.lit 32767) = some 32767 ∧
    operands.operand (.reg 0) = some 0 ∧ operands.operand (.reg 7) = some 32767 := by decide

theorem witness_JmpGoesToTarget : operands.operand (.reg 7) = some 32767 := by decide

theorem witness_JtJumpsWhenNonzero : operands.operand (.reg 7) = some 32767 ∧ (32767 : Value).toNat ≠ 0 ∧
    operands.operand (.reg 0) = some 0 ∧ (0 : Value).toNat = 0 ∧ operands.operand (.lit 20) = some 20 := by decide

theorem witness_JfJumpsWhenZero : operands.operand (.reg 0) = some 0 ∧ (0 : Value).toNat = 0 ∧
    operands.operand (.lit 1) = some 1 ∧ (1 : Value).toNat ≠ 0 ∧ operands.operand (.reg 7) = some 32767 := by decide

theorem witness_CallPushesReturnAddress : operands.operand (.reg 7) = some 32767 ∧ operands.params.stackCapacity = none ∧
    ({ operands with stack := [3], params := ⟨some 2, .halt⟩ } : State).stack.length < 2 ∧
    ({ operands with stack := [3], params := ⟨some 1, .halt⟩ } : State).params.stackCapacity = some [(3 : Word)].length := by
  decide

/-- The room premise of `CallPushesReturnAddress` and `PushPutsValueOnTop`, with no bound and one word below a bound. -/
theorem witness_stack_room : (∀ n, operands.params.stackCapacity = some n → operands.stack.length < n) ∧
    (∀ n, ({ operands with stack := [3], params := ⟨some 2, .halt⟩ } : State).params.stackCapacity = some n →
      ({ operands with stack := [3], params := ⟨some 2, .halt⟩ } : State).stack.length < n) := by
  refine ⟨fun n h => (by cases h), fun n h => ?_⟩
  cases h; decide

theorem witness_RetPopsOrEnds : ({ State.reset with stack := [32768] } : State).stack = [32768] ∧ State.reset.stack = [] ∧
    State.reset.params.retOnEmpty = .halt ∧
    ({ State.reset with params := ⟨none, .fault⟩ } : State).params.retOnEmpty = .fault := by decide

theorem witness_SetCopiesValue : operands.operand (.reg 7) = some 32767 := by decide

theorem witness_PushPutsValueOnTop : operands.operand (.lit 0) = some 0 ∧
    ({ operands with params := ⟨some 0, .halt⟩ } : State).operand (.lit 0) = some 0 ∧
    ({ operands with params := ⟨some 0, .halt⟩ } : State).params.stackCapacity = some operands.stack.length := by decide

theorem witness_PopTakesTopWord : ({ State.reset with stack := [32767, 1] } : State).stack = [32767, 1] ∧
    (32767 : Word).toNat ≤ 32767 ∧ State.reset.stack = [] ∧
    ({ State.reset with stack := [32768] } : State).stack = [32768] ∧ 32768 ≤ (32768 : Word).toNat := by decide

theorem witness_EqWritesOneOrZero : operands.operand (.reg 7) = some 32767 ∧ operands.operand (.lit 32767) = some 32767 ∧
    operands.operand (.reg 0) = some 0 := by decide

theorem witness_GtComparesUnsigned : operands.operand (.reg 7) = some 32767 ∧ operands.operand (.lit 0) = some 0 := by decide

theorem witness_AddModulo32768 : operands.operand (.reg 7) = some 32767 ∧ operands.operand (.lit 1) = some 1 := by decide

theorem witness_MultModulo32768 : operands.operand (.reg 7) = some 32767 ∧ operands.operand (.lit 2) = some 2 := by decide

theorem witness_ModOrArithmeticError : operands.operand (.reg 7) = some 32767 ∧ operands.operand (.lit 1) = some 1 ∧
    (1 : Value).toNat ≠ 0 ∧ operands.operand (.reg 0) = some 0 ∧ (0 : Value).toNat = 0 := by decide

theorem witness_AndOfBits : operands.operand (.reg 7) = some 32767 ∧ operands.operand (.lit 21845) = some 21845 := by decide

theorem witness_OrOfBits : operands.operand (.reg 0) = some 0 ∧ operands.operand (.lit 21845) = some 21845 := by decide

theorem witness_NotIsFifteenBitComplement : operands.operand (.reg 0) = some 0 ∧
    operands.operand (.reg 7) = some 32767 := by decide

theorem witness_RmemLoadsWord : (wordsAt 100 [32767]).operand (.lit 100) = some 100 ∧
    ((wordsAt 100 [32767]).read (100 : Value).toNat).toNat ≤ 32767 ∧
    (wordsAt 32767 [32768]).operand (.lit 32767) = some 32767 ∧
    32768 ≤ ((wordsAt 32767 [32768]).read (32767 : Value).toNat).toNat := by decide

theorem witness_WmemStoresWord : operands.operand (.reg 7) = some 32767 ∧ operands.operand (.lit 55) = some 55 ∧
    operands.mem.wf := by decide

theorem witness_OutEmitsValue : operands.operand (.reg 7) = some 32767 := by decide

theorem witness_InTakesOneCode : ({ State.reset with inbuf := [32767] } : State).inbuf = 32767 :: [] ∧ 32767 ≤ 32767 ∧
    ({ State.reset with inbuf := [32768, 10] } : State).inbuf = 32768 :: [10] ∧ 32768 ≤ 32768 ∧
    State.reset.inbuf = [] := by decide

theorem witness_ArgumentsShownRaw : (32767#16).toNat ≤ 32767 ∧ (32775#16).toNat = 32768 + (7 : Reg).val ∧
    32776 ≤ (32776#16).toNat := by decide

theorem witness_FaultCauseCodes : Cause.stackOverflow.code = Cause.stackOverflow.code := rfl

theorem witness_BlockedInWaitsForLine : (boot [20, 32768]).lineRequest = true ∧ (boot [0]).lineRequest = false ∧
    (∃ t, (boot [20, 32775]).deliverLine [] = .next t) ∧ [] ++ [10] = 10 :: [] ∧
    (∃ t, (boot [20, 32775]).deliverLine [32767] = .next t) ∧ [32767] ++ [10] = 32767 :: [10] :=
  ⟨by decide, by decide, ⟨_, if_pos (by decide)⟩, rfl, ⟨_, if_pos (by decide)⟩, rfl⟩

theorem witness_ReservedSaveLines : (boot [20, 32768]).lineRequest = true ∧
    splitBlanks [] [115, 97, 118, 101, 32, 102] = [[115, 97, 118, 101], [102]] ∧
    splitBlanks [] [115, 97, 118, 101] = [115, 97, 118, 101] :: [] ∧ ([] : List (List Nat)).length ≠ 1 ∧
    splitBlanks [] [115, 97, 118, 101, 32, 102, 9, 103] = [115, 97, 118, 101] :: [[102], [103]] ∧
    [[102], [103]].length ≠ 1 ∧ (splitBlanks [] [108, 111, 111, 107]).head? ≠ some [115, 97, 118, 101] ∧
    (splitBlanks [] []).head? ≠ some [115, 97, 118, 101] := by decide

theorem witness_SnapshotRoundTrip : State.reset.Inv ∧ State.reset.status = .running ∧
    State.Inv { boot [20, 32768] with pc := 32768, stack := [32768], inbuf := [40000] } := by decide

theorem witness_StoppedStatesCanBeSnapshot : (after (boot [0])).Inv ∧ (after (boot [0])).status = .halted ∧
    (boot [20, 32775]).Inv ∧ (boot [20, 32775]).lineRequest = true ∧
    (after (boot [22])).status = .faulted ⟨.unknownOpcode, 0, some 22, [], some 22⟩ := by decide

theorem witness_BadSnapshotRefused : (∃ v ∈ (Vector.replicate 8 32768).toList, 32767 < v) ∧ 32768 < 32769 ∧
    (∃ w ∈ [65536], 65535 < w) ∧ ([] : List Nat).length ≠ 32768 ∧
    ({ State.reset with status := .halted } : State).status ≠ .running := by decide

theorem witness_BreakpointToggle : [3, 10].Pairwise (· < ·) ∧ Debugger.initial.breakpoints.Pairwise (· < ·) ∧
    32767 ≤ 32767 ∧ 32767 < 32768 := by decide

/-- A known opcode at the last address where it fits and at the first where it does not, and an unknown opcode. -/
theorem witness_DisassemblyReassembles : (∀ row ∈ opcodeMap, ((wordsAt (32767 - row.arity) [BitVec.ofNat 16 row.code]).read
      (32767 - row.arity)).toNat = row.code ∧ 32767 - row.arity + row.arity < 32768) ∧
    ((wordsAt 32765 [9]).read 32765).toNat = 9 ∧ 32768 ≤ 32765 + 3 ∧ 22 ≤ ((wordsAt 32767 [22]).read 32767).toNat := by
  decide

end Sys2Proof.Tests
end

/-! ### What a step can do

Every proof about a step below starts from `step_faults_or_effect` or from `step_effect`, and takes from the committed
effect the one item of the state that it speaks of. -/

section
namespace Sys2Proof.Machine

/-- A step of a RUNNING engine takes a fault, or commits the effect of the decoded instruction (R85). -/
theorem step_faults_or_effect {s t : State} (hr : s.status = .running) (hs : step s = .next t) :
    (∃ r, t = s.faulted r) ∨ ∃ i rest, decode s.window = .ok (i, rest) ∧ Effect i s t := by
  rcases step_cases hs with ⟨hn, -⟩ | ⟨e, -, -, rfl⟩ | ⟨i, rest, -, hd, he⟩
  · exact absurd hr hn
  · obtain ⟨c, o, as, v, hf⟩ := fetchFault_is_fault s e
    exact .inl ⟨_, hf⟩
  · rcases exec_cases he with he | ⟨e, -, rfl⟩
    · exact .inr ⟨i, rest, hd, he⟩
    · exact .inl ⟨_, rfl⟩

/-- The line request, in terms of the status, the buffer and the decoded instruction (R182). -/
theorem lineRequest_iff {s : State} :
    s.lineRequest = true ↔
      s.status = .running ∧ s.inbuf = [] ∧ ∃ d rest, decode s.window = .ok (.in_ (.reg d), rest) := by
  constructor
  · intro h
    obtain ⟨d, rest, hr, hd, hi⟩ := lineRequest_cases h
    exact ⟨hr, hi, d, rest, hd⟩
  · rintro ⟨hr, hi, d, rest, hd⟩
    simp only [State.lineRequest, hr, hd, hi]

/-! ### The invariant -/

/-- An effect keeps the memory in canonical form. -/
theorem effect_mem_wf {i : Instr} {s t : State} (h : Effect i s t) (hm : s.mem.wf) : t.mem.wf := by
  rcases effect_mem h with e | ⟨a, b, va, vb, -, -, -, e⟩
  · rwa [e]
  · rw [e]
    exact Memory.wf_set hm va.isLt _

/-- `pc` past a decoded instruction is at most 32768, so the addition does not wrap (R26, R27). -/
theorem pc_add_length_toNat {s : State} {i : Instr} {rest : List Word} (hd : decode s.window = .ok (i, rest)) :
    (s.pc + BitVec.ofNat 16 i.length).toNat = s.pc.toNat + i.length ∧ s.pc.toNat + i.length ≤ 32768 := by
  obtain ⟨-, hlt, -⟩ := window_of_decode hd
  have hle : s.pc.toNat + i.length ≤ 32768 := by
    rw [Instr.length]
    omega
  exact ⟨pc_add_toNat hle, hle⟩

/-- An effect leaves `pc` at most 32768 (R26): past the instruction, at a value, or at a word taken from the stack. -/
theorem effect_pc_le {i : Instr} {s t : State} {rest : List Word} (h : Effect i s t)
    (hd : decode s.window = .ok (i, rest)) (hp : s.pc.toNat ≤ 32768) (hw : ∀ w ∈ s.stack, w.toNat ≤ 32768) :
    t.pc.toNat ≤ 32768 := by
  rcases effect_pc h with e | ⟨-, hv⟩ | ⟨-, w, hmem, e⟩ | ⟨rfl, -⟩
  · obtain ⟨hadd, hle⟩ := pc_add_length_toNat hd
    rwa [e, hadd]
  · omega
  · rw [e]
    exact hw w hmem
  · exact hp

/-- `call` is two words long (R84). -/
theorem length_of_opcode_call {i : Instr} (h : i.opcode.toNat = 17) : i.length = 2 := by
  cases i <;> simp_all [Instr.opcode, Instr.length, Instr.args]

/-- An effect leaves every stack word at most 32768 (R34): a pushed word is a value or a return address. -/
theorem effect_stack_words_le {i : Instr} {s t : State} {rest : List Word} (h : Effect i s t)
    (hd : decode s.window = .ok (i, rest)) (hw : ∀ w ∈ s.stack, w.toNat ≤ 32768) :
    ∀ w ∈ t.stack, w.toNat ≤ 32768 := by
  rcases effect_stack h with e | ⟨-, w, e, hpushed, -⟩ | ⟨-, w, e⟩
  · rwa [e]
  · rw [e, List.forall_mem_cons]
    refine ⟨?_, hw⟩
    rcases hpushed with hv | ⟨hop, rfl⟩
    · omega
    · obtain ⟨hadd, hle⟩ := pc_add_length_toNat hd
      rw [length_of_opcode_call hop] at hadd hle
      exact hadd.trans_le hle
  · rw [e] at hw
    exact fun x hx => hw x (List.mem_cons_of_mem w hx)

/-- An effect keeps the stack within its capacity (R208): a push needs room. -/
theorem effect_stackWithinCapacity {i : Instr} {s t : State} (h : Effect i s t)
    (hc : s.stackWithinCapacity = true) : t.stackWithinCapacity = true := by
  rw [stackWithinCapacity_iff] at hc ⊢
  rw [(effect_io h).1]
  intro n hn
  rcases effect_stack h with e | ⟨-, w, e, -, hroom⟩ | ⟨-, w, e⟩
  · rw [e]
    exact hc n hn
  · rw [e, List.length_cons]
    exact hroom n hn
  · have := hc n hn
    rw [e, List.length_cons] at this
    omega

/-- An effect keeps the invariant. -/
theorem effect_inv {i : Instr} {s t : State} {rest : List Word} (h : Effect i s t)
    (hd : decode s.window = .ok (i, rest)) (hs : s.Inv) : t.Inv := by
  obtain ⟨hm, hp, hw, hc⟩ := hs
  simp only [List.all_eq_true, decide_eq_true_eq] at hw
  exact ⟨effect_mem_wf h hm, effect_pc_le h hd hp hw,
    by simpa only [List.all_eq_true, decide_eq_true_eq] using effect_stack_words_le h hd hw,
    effect_stackWithinCapacity h hc⟩

/-- Settles O26: a step changes the status alone, which the invariant does not name, or commits an effect. -/
theorem stepKeepsInvariant : Obligations.StepKeepsInvariant := by
  intro s t hs hstep
  rcases step_effect hstep with ⟨st, rfl⟩ | ⟨i, rest, hd, -, he⟩
  · exact ⟨hs, rfl⟩
  · exact ⟨effect_inv he hd hs, (effect_io he).1⟩

/-- Settles O25, on the concrete reset state. -/
theorem resetMeetsInvariant : Obligations.ResetMeetsInvariant := by
  unfold Obligations.ResetMeetsInvariant
  decide

/-! ### Reset -/

/-- An image that fits is loaded over the reset state (R38, R241). -/
theorem loadImage_of_fits (p : Config.Params) {image : List Word} (h : image.length ≤ 32768) :
    loadImage p image = .next { State.reset with mem := Memory.ofWordsFrom 0 image, params := p } :=
  if_pos h

/-- Every register is 0 after reset (R38). -/
@[simp] theorem reset_reg (r : Reg) : State.reset.reg r = 0 := by
  simp [State.reset, State.reg]

/-- Settles O1, through what the memory of a word sequence reads as. -/
theorem resetFromImage : Obligations.ResetFromImage := by
  refine ⟨loadImage_of_fits _ (Nat.zero_le _), fun p image hlen => ?_⟩
  refine ⟨_, loadImage_of_fits p hlen, reset_reg, rfl, rfl, fun k w hk => ?_, fun k hk => ?_, rfl, rfl⟩
  · simp [State.read, Memory.get_ofWordsFrom, hk]
  · simp [State.read, Memory.get_ofWordsFrom, List.getElem?_eq_none hk]

/-! ### The frames of a step -/

/-- Settles O17: the effects that leave the status HALTED are those of `halt` and of `ret` on an empty stack. -/
theorem terminalStatesAndWhoHalts : Obligations.TerminalStatesAndWhoHalts := by
  refine ⟨fun s h => step_of_not_running ?_, fun s t hr hstep ht => ?_⟩
  · rcases h with h | ⟨r, h⟩ <;> simp [h]
  · rcases step_faults_or_effect hr hstep with ⟨r, rfl⟩ | ⟨i, rest, hd, he⟩
    · cases ht
    · obtain ⟨hop, -, -⟩ := window_of_decode hd
      rw [← hop]
      rcases effect_status he hr with hrun | ⟨-, rfl | ⟨rfl, hstack, hparam⟩⟩
      · rw [hrun] at ht
        cases ht
      · exact .inl rfl
      · exact .inr ⟨rfl, hstack, hparam⟩

/-- Settles O18: a register that an effect changes is the one argument 0 names. -/
theorem registersWrittenByArgumentZero : Obligations.RegistersWrittenByArgumentZero := by
  intro s t hstep r hne
  rcases step_effect hstep with ⟨st, rfl⟩ | ⟨i, rest, hd, -, he⟩
  · exact absurd rfl hne
  · obtain ⟨hop, -, -⟩ := window_of_decode hd
    obtain ⟨hmem, harg⟩ := effect_reg he r hne
    rw [← hop, ← argument_zero_word hd harg]
    exact ⟨hmem, Operand.toNat_toWord_reg r⟩

/-- Settles O20, by the stack after an effect. -/
theorem stackTouchedByFourOpcodes : Obligations.StackTouchedByFourOpcodes := by
  intro s t hstep hne
  rcases step_effect hstep with ⟨st, rfl⟩ | ⟨i, rest, hd, -, he⟩
  · exact absurd rfl hne
  · obtain ⟨hop, -, -⟩ := window_of_decode hd
    rw [← hop]
    rcases effect_stack he with e | ⟨hmem, w, e, -, -⟩ | hpopped
    · exact absurd e hne
    · exact .inl ⟨hmem, w, e⟩
    · exact .inr hpopped

/-- Settles O21, by the input buffer after an effect. -/
theorem inputConsumedByInOnly : Obligations.InputConsumedByInOnly := by
  intro s t hstep hne
  rcases step_effect hstep with ⟨st, rfl⟩ | ⟨i, rest, hd, -, he⟩
  · exact absurd rfl hne
  · obtain ⟨hop, -, -⟩ := window_of_decode hd
    rw [← hop]
    obtain ⟨-, hin, -⟩ := effect_io he
    exact hin.resolve_left hne

/-- Settles O23: an effect moves `pc` past the instruction but for the five opcodes and for the wait of a line request. -/
theorem sequentialPcAdvance : Obligations.SequentialPcAdvance := by
  intro s t i rest hr hd hop hline hstep ht
  rcases step_faults_or_effect hr hstep with ⟨r, rfl⟩ | ⟨j, rest', hd', he⟩
  · cases ht
  · obtain ⟨rfl, -⟩ : i = j ∧ rest = rest' := by simpa [hd] using hd'
    rcases effect_pc he with e | ⟨hmem, -⟩ | ⟨hret, -⟩ | ⟨-, hi, d, rfl⟩
    · rw [e, (pc_add_length_toNat hd).1, Instr.length, Nat.add_assoc]
    · refine absurd ?_ hop
      simp only [List.mem_cons, List.not_mem_nil, or_false] at hmem ⊢
      omega
    · exact absurd (by simp [hret]) hop
    · rw [lineRequest_iff.2 ⟨hr, hi, d, rest, hd⟩] at hline
      cases hline

end Sys2Proof.Machine
end

/-! ### Earlier output

A step commutes with putting values before the recorded output. Each operation that a meaning is built from does, so
each shape of instruction does, so `exec` and `step` do. -/

section
namespace Sys2Proof.Machine

/-- The state with values put before its recorded output (log 3). -/
def State.precede (earlier : List Value) (s : State) : State := { s with output := earlier ++ s.output }

variable (earlier : List Value)

@[simp] theorem precede_pc (s : State) : (s.precede earlier).pc = s.pc := rfl
@[simp] theorem precede_stack (s : State) : (s.precede earlier).stack = s.stack := rfl
@[simp] theorem precede_inbuf (s : State) : (s.precede earlier).inbuf = s.inbuf := rfl
@[simp] theorem precede_params (s : State) : (s.precede earlier).params = s.params := rfl

theorem writeBack_precede (s : State) (i : Instr) (d : Reg) (v : Value) :
    (s.precede earlier).writeBack i d v = (s.writeBack i d v).precede earlier := rfl

@[simp] theorem resolve_precede (k : Nat) (o : Operand) (s : State) :
    resolve k o (s.precede earlier) = resolve k o s := by
  cases o <;> rfl

@[simp] theorem checkArgs_precede (role : Role) (k : Nat) (os : List Operand) (s : State) :
    checkArgs role k os (s.precede earlier) = checkArgs role k os s := by
  induction os generalizing k with
  | nil => rfl
  | cons o os ih => simp only [checkArgs_cons, resolve_precede, ih]

theorem pushWord_precede (s : State) (w : Word) :
    pushWord (s.precede earlier) w = State.precede earlier <$> pushWord s w := by
  rcases pushWord_cases s w with ⟨hroom, h⟩ | ⟨⟨n, hn, hle⟩, h⟩ <;> rw [h]
  · exact pushWord_of_room hroom
  · rcases pushWord_cases (s.precede earlier) w with ⟨hroom, -⟩ | ⟨-, h'⟩
    · exact absurd (hroom n hn) (Nat.not_lt.2 hle)
    · exact h'

theorem popWord_precede (s : State) :
    popWord (s.precede earlier) = Prod.map id (State.precede earlier) <$> popWord s := by
  cases hs : s.stack <;> simp only [popWord, precede_stack, hs] <;> rfl

/-- The end of an instruction commutes: a committed state and a fault alike keep the values put before. -/
theorem finish_precede {i : Instr} {s t : State} {r : Except Exn State} (h : finish i s r = .next t) :
    finish i (s.precede earlier) (State.precede earlier <$> r) = .next (t.precede earlier) := by
  cases r <;> cases h <;> rfl

theorem writeUnary_precede {i : Instr} {a b : Operand} {s t : State} {f : Value → Except Exn Value}
    (h : writeUnary i a b s f = .next t) :
    writeUnary i a b (s.precede earlier) f = .next (t.precede earlier) := by
  have h' := finish_precede earlier h
  simp only [map_bind, map_pure] at h'
  simpa only [writeUnary, resolve_precede, writeBack_precede] using h'

theorem writeBinary_precede {i : Instr} {a b c : Operand} {s t : State} {f : Value → Value → Except Exn Value}
    (h : writeBinary i a b c s f = .next t) :
    writeBinary i a b c (s.precede earlier) f = .next (t.precede earlier) := by
  have h' := finish_precede earlier h
  simp only [map_bind, map_pure] at h'
  simpa only [writeBinary, resolve_precede, writeBack_precede] using h'

/-- `f` and `g` are the effect from the state and from the state with the values put before. -/
theorem readUnary_precede {i : Instr} {a : Operand} {s t : State} {f g : Value → Except Exn State}
    (hg : ∀ va, g va = State.precede earlier <$> f va) (h : readUnary i a s f = .next t) :
    readUnary i a (s.precede earlier) g = .next (t.precede earlier) := by
  have h' := finish_precede earlier h
  simp only [map_bind] at h'
  simpa only [readUnary, resolve_precede, hg] using h'

theorem readBinary_precede {i : Instr} {a b : Operand} {s t : State} {f g : Value → Value → Except Exn State}
    (hg : ∀ va vb, g va vb = State.precede earlier <$> f va vb) (h : readBinary i a b s f = .next t) :
    readBinary i a b (s.precede earlier) g = .next (t.precede earlier) := by
  have h' := finish_precede earlier h
  simp only [map_bind] at h'
  simpa only [readBinary, resolve_precede, hg] using h'

theorem execRet_precede {s t : State} (h : execRet s = .next t) :
    execRet (s.precede earlier) = .next (t.precede earlier) := by
  rw [execRet] at h ⊢
  rw [← finish_precede earlier h, popWord_precede, precede_params]
  congr 1
  cases popWord s with
  | ok p => rfl
  | error e => cases s.params.retOnEmpty <;> rfl

theorem execPop_precede {a : Operand} {s t : State} (h : execPop a s = .next t) :
    execPop a (s.precede earlier) = .next (t.precede earlier) := by
  have h' := finish_precede earlier h
  simp only [map_bind, map_pure] at h'
  simpa only [execPop, popWord_precede, bind_map_left, Prod.map_fst, Prod.map_snd, id_eq, writeBack_precede]
    using h'

theorem execIn_precede {a : Operand} {s t : State} (h : execIn a s = .next t) :
    execIn a (s.precede earlier) = .next (t.precede earlier) := by
  have h' := finish_precede earlier h
  rw [execIn, precede_inbuf]
  cases hi : s.inbuf <;> simp only [hi, map_bind, map_pure] at h' ⊢ <;> exact h'

/-- Every instruction commutes with putting values before the output. -/
theorem exec_precede {i : Instr} {s t : State} (h : exec i s = .next t) :
    exec i (s.precede earlier) = .next (t.precede earlier) := by
  cases i
  case halt => cases h; rfl
  case noop => cases h; rfl
  case set => exact writeUnary_precede earlier h
  case not => exact writeUnary_precede earlier h
  case rmem => exact writeUnary_precede earlier h
  case eq => exact writeBinary_precede earlier h
  case gt => exact writeBinary_precede earlier h
  case add => exact writeBinary_precede earlier h
  case mult => exact writeBinary_precede earlier h
  case mod => exact writeBinary_precede earlier h
  case and => exact writeBinary_precede earlier h
  case or => exact writeBinary_precede earlier h
  case push =>
    refine readUnary_precede earlier (fun va => ?_) h
    simp only [pushWord_precede, map_bind, map_pure, bind_map_left]
    rfl
  case call =>
    refine readUnary_precede earlier (fun va => ?_) h
    simp only [advance_pc, precede_pc, pushWord_precede, map_bind, map_pure, bind_map_left]
    rfl
  case jmp => exact readUnary_precede earlier (fun _ => rfl) h
  case out =>
    refine readUnary_precede earlier (fun va => ?_) h
    simp [State.emit, State.precede, State.advance]
  case jt => refine readBinary_precede earlier (fun va _ => ?_) h; cases isNonzero va <;> rfl
  case jf => refine readBinary_precede earlier (fun va _ => ?_) h; cases isNonzero va <;> rfl
  case wmem =>
    refine readBinary_precede earlier (fun va vb => ?_) h
    rw [memWrite_value, memWrite_value]
    rfl
  case ret => exact execRet_precede earlier h
  case pop => exact execPop_precede earlier h
  case in_ => exact execIn_precede earlier h

theorem fetchFault_precede (s : State) (e : DecodeError) :
    (s.precede earlier).fetchFault e = (s.fetchFault e).precede earlier := by
  cases e with
  | noOpcode => rfl
  | unknownOpcode op => rfl
  | truncated op role args =>
    simp only [State.fetchFault, checkArgs_precede]
    cases checkArgs role 0 (args.map classify) s <;> rfl

/-- Settles O24, by the three ways a step goes. -/
theorem earlierOutputHasNoEffect : Obligations.EarlierOutputHasNoEffect := by
  intro s t earlier hstep
  change step (s.precede earlier) = .next (t.precede earlier)
  rcases step_cases hstep with ⟨hn, rfl⟩ | ⟨e, hr, hd, rfl⟩ | ⟨i, rest, hr, hd, he⟩
  · exact step_of_not_running hn
  · rw [← fetchFault_precede]
    exact step_of_decode_error (s := s.precede earlier) hr hd
  · rw [← exec_precede earlier he]
    exact step_of_decode (s := s.precede earlier) hr hd

end Sys2Proof.Machine
end

/-! ### The blocked `in` -/

section
namespace Sys2Proof.Machine

/-- `in` on an empty buffer: no state changes (R182). -/
theorem exec_in_of_empty (d : Reg) {s : State} (h : s.inbuf = []) : exec (.in_ (.reg d)) s = .next s := by
  simp only [exec, execIn, dest, h]
  rfl

/-- `in` on a code that a register holds: the code goes into the destination and leaves the buffer (R181). -/
theorem exec_in_of_code (d : Reg) {s : State} {c : Nat} {rest : List Nat} (h : s.inbuf = c :: rest) (hc : c ≤ 32767) :
    exec (.in_ (.reg d)) s =
      .next (State.writeBack { s with inbuf := rest } (.in_ (.reg d)) d (BitVec.ofNat 15 c)) := by
  simp only [exec, execIn, dest, h, toRegister_of_le hc]
  rfl

/-- A delivery needs a line request, and sets the buffer to the line and the newline (R183, R248). -/
theorem deliverLine_eq_next_iff {s t : State} {line : List Nat} :
    s.deliverLine line = .next t ↔ s.lineRequest = true ∧ t = s.primeLine line := by
  rw [State.deliverLine]
  cases s.lineRequest with
  | false => simp
  | true => simp [eq_comm (a := t)]

/-- A delivery to a blocked `in` lets it complete in the next step (R183, R39). -/
theorem step_primeLine {s : State} {d : Reg} {rest : List Word} {line : List Nat} {c : Nat} {codes : List Nat}
    (hr : s.status = .running) (hd : decode s.window = .ok (.in_ (.reg d), rest))
    (hline : line ++ [10] = c :: codes) (hc : c ≤ 32767) :
    step (s.primeLine line) =
      .next (State.writeBack { s with inbuf := codes } (.in_ (.reg d)) d (BitVec.ofNat 15 c)) := by
  rw [step_of_decode (s := s.primeLine line) hr hd]
  exact exec_in_of_code d hline hc

/-- Settles O52: a line request is an `in` at `pc` on an empty buffer, and a line makes the buffer not empty. -/
theorem blockedInWaitsForLine : Obligations.BlockedInWaitsForLine := by
  refine ⟨fun s => lineRequest_iff, fun s h => ⟨?_, fun line => deliverLine_eq_next_iff.2 ⟨h, rfl⟩⟩,
    fun s line h => by simp [State.deliverLine, h], fun s t line c codes ht hline hc => ?_⟩
  · obtain ⟨hr, hi, d, rest, hd⟩ := lineRequest_iff.1 h
    rw [step_of_decode hr hd, exec_in_of_empty d hi]
  · obtain ⟨h, rfl⟩ := deliverLine_eq_next_iff.1 ht
    obtain ⟨hr, -, d, rest, hd⟩ := lineRequest_iff.1 h
    have harg : (s.argWord 0).toNat = 32768 + d.val := by
      rw [← argument_zero_word hd rfl, Operand.toNat_toWord_reg]
    refine ⟨_, d, harg, step_primeLine hr hd hline hc, ?_, rfl, rfl, hr⟩
    rw [writeBack_reg, BitVec.toNat_ofNat]
    exact Nat.mod_eq_of_lt (by omega)

end Sys2Proof.Machine
end

/-! ### The memory primitives, and who writes memory -/

section
namespace Sys2Proof.Machine

theorem memRead_of_ge (s : State) {a : Nat} (h : 32768 ≤ a) : memRead s a = .error ⟨.addressError, 3, some a⟩ :=
  if_neg (Nat.not_lt.2 h)

theorem memWrite_of_ge (s : State) {a : Nat} (w : Word) (h : 32768 ≤ a) :
    memWrite s a w = .error ⟨.addressError, 3, some a⟩ :=
  if_neg (Nat.not_lt.2 h)

/-- Settles O28, by the laws of memory below 32768 and the refusal above. -/
theorem memoryPrimitives : Obligations.MemoryPrimitives := by
  intro s a w hm
  refine ⟨fun h => ⟨memRead_of_ge s h, memWrite_of_ge s w h⟩, fun h => ⟨memRead_of_lt s h, ?_⟩⟩
  exact ⟨_, memWrite_of_lt s w h, Memory.wf_set hm h w, Memory.get_set_same hm a w,
    fun b hb => Memory.get_set_of_ne s.mem w hb, rfl⟩

/-- Settles O19: the only effect on memory is the write of `wmem`, which leaves every other address alone. -/
theorem memoryWrittenByWmemOnly : Obligations.MemoryWrittenByWmemOnly := by
  intro s t hm hstep x hne
  rcases step_effect hstep with ⟨st, rfl⟩ | ⟨i, rest, hd, -, he⟩
  · exact absurd rfl hne
  · rcases effect_mem he with e | ⟨a, b, va, vb, rfl, ha, -, e⟩
    · exact absurd (congrArg (Memory.get · x) e) hne
    · have hread (y : Nat) : t.read y = (s.mem.set va.toNat vb.toWord).get y := congrArg (Memory.get · y) e
      obtain rfl : x = va.toNat := by
        by_contra hx
        exact hne ((hread x).trans (Memory.get_set_of_ne s.mem _ hx))
      obtain ⟨hop, -, -⟩ := window_of_decode hd
      have harg : a = classify (s.argWord 0) := argument_of_decode (k := 0) hd rfl
      refine ⟨by rw [← hop]; rfl, ⟨va, by rwa [← harg], rfl⟩, ?_⟩
      rw [hread, Memory.get_set_same hm, Value.toNat_toWord]
      exact Nat.le_of_lt_succ vb.isLt

/-- `wmem` with readable arguments completes: one word of memory changes, and `pc` moves (R172). -/
theorem exec_wmem_of_operands {a b : Operand} {s : State} {va vb : Value} (ha : s.operand a = some va)
    (hb : s.operand b = some vb) :
    exec (.wmem a b) s = .next (State.advance { s with mem := s.mem.set va.toNat vb.toWord } 3) := by
  simp only [exec, execWmem]
  rw [readBinary_legal _ ha hb, memWrite_value]
  rfl

/-- Settles O29: each fetched word is the memory word at its address, after the store as before it. -/
theorem storeSeenByNextFetch : Obligations.StoreSeenByNextFetch := by
  intro s t a b va vb rest hm hr hd ha hb hstep p n k w hw
  rw [step_of_decode hr hd, exec_wmem_of_operands ha hb, Host.Outcome.next.injEq] at hstep
  subst hstep
  simp only [advance_mem, wordsFrom_getElem?, Option.ite_none_right_eq_some, Option.some.injEq] at hw ⊢
  obtain ⟨hin, rfl⟩ := hw
  refine ⟨fun hx => ?_, fun hx => ⟨hin, (Memory.get_set_of_ne s.mem _ hx).symm⟩⟩
  rw [hx, Memory.get_set_same hm, Value.toNat_toWord]

end Sys2Proof.Machine
end

/-! ### Byte images -/

section
namespace Sys2Proof.Machine

/-- A byte image of odd length gives no words (R241). -/
theorem wordsOfBytes_of_odd {bytes : List (BitVec 8)} (h : bytes.length % 2 = 1) : wordsOfBytes bytes = none := by
  induction bytes using wordsOfBytes.induct with
  | case1 => cases h
  | case2 b => rfl
  | case3 lo hi rest ih => rw [wordsOfBytes, ih ((Nat.add_mod_right rest.length 2).symm.trans h), Option.map_none]

/-- Word `k` of an image is bytes `2k` and `2k + 1`, the low byte first (R53). -/
def WordsOf (bytes : List (BitVec 8)) (image : List Word) : Prop :=
  ∀ k lo hi, bytes[2 * k]? = some lo → bytes[2 * k + 1]? = some hi →
    ∃ w, image[k]? = some w ∧ w.toNat = lo.toNat + 256 * hi.toNat

theorem WordsOf.cons {rest : List (BitVec 8)} {image : List Word} (h : WordsOf rest image) (lo hi : BitVec 8) :
    WordsOf (lo :: hi :: rest) (BitVec.ofNat 16 (lo.toNat + 256 * hi.toNat) :: image) := by
  intro k x y hx hy
  cases k with
  | zero =>
    obtain rfl : lo = x := by simpa using hx
    obtain rfl : hi = y := by simpa using hy
    refine ⟨_, rfl, ?_⟩
    rw [BitVec.toNat_ofNat]
    exact Nat.mod_eq_of_lt (by omega)
  | succ k => exact h k x y hx hy

/-- A byte image of even length gives its words, half as many (R53). -/
theorem wordsOfBytes_of_even {bytes : List (BitVec 8)} (h : bytes.length % 2 = 0) :
    ∃ image, wordsOfBytes bytes = some image ∧ 2 * image.length = bytes.length ∧ WordsOf bytes image := by
  induction bytes using wordsOfBytes.induct with
  | case1 => exact ⟨[], rfl, rfl, fun k lo hi hlo => by simp at hlo⟩
  | case2 b => cases h
  | case3 lo hi rest ih =>
    obtain ⟨image, hwords, hlen, hof⟩ := ih ((Nat.add_mod_right rest.length 2).symm.trans h)
    refine ⟨BitVec.ofNat 16 (lo.toNat + 256 * hi.toNat) :: image, ?_, ?_, hof.cons lo hi⟩
    · rw [wordsOfBytes, hwords, Option.map_some]
    · simp only [List.length_cons]
      omega

theorem loadImageBytes_of_none {p : Config.Params} {bytes : List (BitVec 8)} (h : wordsOfBytes bytes = none) :
    loadImageBytes p bytes = .refused .imageOddBytes := by
  simp only [loadImageBytes, h]

theorem loadImageBytes_of_some {p : Config.Params} {bytes : List (BitVec 8)} {image : List Word}
    (h : wordsOfBytes bytes = some image) : loadImageBytes p bytes = loadImage p image := by
  simp only [loadImageBytes, h]

/-- An image of more than 32768 words is refused (R241). -/
theorem loadImage_of_too_long (p : Config.Params) {image : List Word} (h : 32768 < image.length) :
    loadImage p image = .refused .imageTooLong :=
  if_neg (Nat.not_le.2 h)

/-- Settles O2, by the words of an odd and of an even byte image; the image of no words is `halt` at address 0. -/
theorem byteImageLoad : Obligations.ByteImageLoad := by
  refine ⟨fun bytes h => wordsOfBytes_of_odd h, fun p bytes h => loadImageBytes_of_none (wordsOfBytes_of_odd h),
    fun p image h => loadImage_of_too_long p h, fun p bytes h => ?_, fun p => ?_⟩
  · obtain ⟨image, hwords, hlen, hof⟩ := wordsOfBytes_of_even h
    exact ⟨image, hwords, hlen, loadImageBytes_of_some hwords, hof⟩
  · exact ⟨_, _, loadImage_of_fits p (Nat.zero_le _), rfl, rfl, rfl⟩

end Sys2Proof.Machine
end

/-! ### The words at `pc` -/

section
namespace Sys2Proof

/-- The words of an instruction whose arguments are classes of words decode to it (R83, R93). -/
theorem decode_encode_of_canonical {i : Instr} (h : ∀ o ∈ i.args, o.canonical = true) (rest : List Word) :
    decode (encode i ++ rest) = .ok (i, rest) := by
  have hc : ∀ o ∈ i.args, classify o.toWord = o := fun o ho => classify_toWord (h o ho)
  cases i <;>
    simp_all [encode, Instr.opcode, Instr.argWords, Instr.args, decode, decodeOpcode, decodeF1, decodeF2, decodeF3]

end Sys2Proof

namespace Sys2Proof.Machine

/-- Where the words `ws` stand in memory from `pc` on, the window begins with them, if they are at most four (R79). -/
theorem window_eq_append {s : State} {ws : List Word} (hlen : ws.length ≤ 4)
    (h : ∀ k w, ws[k]? = some w → s.pc.toNat + k < 32768 ∧ s.read (s.pc.toNat + k) = w) :
    s.window = ws ++ s.window.drop ws.length := by
  have htake : s.window.take ws.length = ws := by
    apply List.ext_getElem?
    intro k
    rw [List.getElem?_take, window_getElem?]
    by_cases hk : k < ws.length
    · obtain ⟨hlt, hread⟩ := h k _ (List.getElem?_eq_getElem hk)
      simp [hk, hlt, hread, Nat.lt_of_lt_of_le hk hlen]
    · simp [hk]
  rw [← List.take_append_drop ws.length s.window, htake, List.drop_left]

/-- An instruction is at most four words long (R70). -/
theorem encode_length_le (i : Instr) : (encode i).length ≤ 4 := by
  cases i <;> simp [encode, Instr.argWords, Instr.args]

/-- Settles O12: the window begins with the instruction's words, and they decode to it. -/
theorem stepRunsWordsAtPc : Obligations.StepRunsWordsAtPc := by
  intro s i hr hwf hwords
  have hd := decode_encode_of_canonical (Instr.canonical_args hwf) (s.window.drop (encode i).length)
  rw [← window_eq_append (encode_length_le i) hwords] at hd
  exact step_of_decode hr hd

end Sys2Proof.Machine
end

/-! ### The causes of a fault

A fault comes from an argument check, of a decoded instruction or of one cut off by the end of memory, from the fetch of
the opcode word, or from the execute stage. Each gives `FaultReason`; the row of the opcode map says which opcodes an
argument check is made for. -/

section
namespace Sys2Proof.Machine

/-- What a fault's cause says of the state it was taken in (R200 to R208). -/
def FaultReason (s : State) (r : FaultRecord) : Prop :=
  match r.cause with
  | .unknownOpcode => 22 ≤ s.opcodeWord.toNat
  | .invalidOperand => s.opcodeWord.toNat ≤ 21 ∧ s.opcodeWord.toNat ∉ [0, 18, 21] ∧
      ∃ k < 3, 32776 ≤ (s.argWord k).toNat ∧ r.value = some (s.argWord k).toNat
  | .invalidDestination =>
      s.opcodeWord.toNat ∈ [1, 3, 4, 5, 9, 10, 11, 12, 13, 14, 15, 20] ∧ (s.argWord 0).toNat ≤ 32767
  | .stackUnderflow =>
      s.stack = [] ∧ (s.opcodeWord.toNat = 3 ∨ (s.opcodeWord.toNat = 18 ∧ s.params.retOnEmpty = .fault))
  | .addressError =>
      (r.opcode = none → 32768 ≤ s.pc.toNat) ∧ (r.opcode ≠ none → 32768 ≤ s.pc.toNat + 1 + r.args.length)
  | .arithmeticError => s.opcodeWord.toNat = 11 ∧ s.operand (classify (s.argWord 2)) = some 0
  | .registerRange => ∃ n, r.value = some n ∧ 32768 ≤ n ∧
      ((s.opcodeWord.toNat = 3 ∧ ∃ w, s.stack.head? = some w ∧ w.toNat = n) ∨
        (s.opcodeWord.toNat = 15 ∧ ∃ a, s.operand (classify (s.argWord 1)) = some a ∧ (s.read a.toNat).toNat = n) ∨
          (s.opcodeWord.toNat = 20 ∧ s.inbuf.head? = some n))
  | .stackOverflow => s.opcodeWord.toNat ∈ [2, 17] ∧ ∃ n, s.params.stackCapacity = some n ∧ n ≤ s.stack.length

/-- Every instruction has its row in the opcode map (R73). -/
theorem exists_row_of_instr (i : Instr) :
    ∃ row ∈ opcodeMap, row.code = i.opcode.toNat ∧ row.role = i.role ∧ row.arity = i.args.length := by
  cases i <;> simp [opcodeMap, Instr.opcode, Instr.role, Instr.args]

/-- The words `ws` after the opcode word `op` end before the last argument of some instruction with that opcode, and `e`
says so. -/
def CutOff (op : Word) (ws : List Word) (e : DecodeError) : Prop :=
  ∃ i : Instr, i.opcode = op ∧ e = .truncated op i.role ws ∧ ws.length < i.args.length

/-- An F1 decoding fails only where the words are cut off. -/
theorem decodeF1_error {op : Word} {role : Role} {mk : Operand → Instr} {ws : List Word} {e : DecodeError}
    (h : decodeF1 op role mk ws = .error e) (hrole : ∀ a, (mk a).role = role) (hop : ∀ a, (mk a).opcode = op)
    (hargs : ∀ a, (mk a).args = [a]) : CutOff op ws e := by
  rcases decodeF1_words op role mk ws hrole hop hargs with ⟨-, i, rest, g, -⟩ | ⟨hlt, g⟩ <;> rw [g] at h <;> cases h
  exact ⟨mk (.lit 0), hop _, by rw [hrole], by rwa [hargs]⟩

theorem decodeF2_error {op : Word} {role : Role} {mk : Operand → Operand → Instr} {ws : List Word} {e : DecodeError}
    (h : decodeF2 op role mk ws = .error e) (hrole : ∀ a b, (mk a b).role = role) (hop : ∀ a b, (mk a b).opcode = op)
    (hargs : ∀ a b, (mk a b).args = [a, b]) : CutOff op ws e := by
  rcases decodeF2_words op role mk ws hrole hop hargs with ⟨-, i, rest, g, -⟩ | ⟨hlt, g⟩ <;> rw [g] at h <;> cases h
  exact ⟨mk (.lit 0) (.lit 0), hop _ _, by rw [hrole], by rwa [hargs]⟩

theorem decodeF3_error {op : Word} {role : Role} {mk : Operand → Operand → Operand → Instr} {ws : List Word}
    {e : DecodeError} (h : decodeF3 op role mk ws = .error e) (hrole : ∀ a b c, (mk a b c).role = role)
    (hop : ∀ a b c, (mk a b c).opcode = op) (hargs : ∀ a b c, (mk a b c).args = [a, b, c]) : CutOff op ws e := by
  rcases decodeF3_words op role mk ws hrole hop hargs with ⟨-, i, rest, g, -⟩ | ⟨hlt, g⟩ <;> rw [g] at h <;> cases h
  exact ⟨mk (.lit 0) (.lit 0) (.lit 0), hop _ _ _, by rw [hrole], by rwa [hargs]⟩

/-- Everything a decoding can fail with once there is an opcode word (R82, R212). -/
theorem decode_error_cases {op : Word} {ws : List Word} {e : DecodeError} (h : decode (op :: ws) = .error e) :
    (e = .unknownOpcode op ∧ 22 ≤ op.toNat) ∨ CutOff op ws e := by
  rw [decode, decodeOpcode] at h
  split at h
  case h_1 | h_19 | h_22 => cases h
  case h_3 hop | h_4 hop | h_7 hop | h_18 hop | h_20 hop | h_21 hop =>
    exact .inr (decodeF1_error h (fun _ => rfl) (fun _ => BitVec.eq_of_toNat_eq hop.symm) (fun _ => rfl))
  case h_2 hop | h_8 hop | h_9 hop | h_15 hop | h_16 hop | h_17 hop =>
    exact .inr (decodeF2_error h (fun _ _ => rfl) (fun _ _ => BitVec.eq_of_toNat_eq hop.symm) (fun _ _ => rfl))
  case h_5 hop | h_6 hop | h_10 hop | h_11 hop | h_12 hop | h_13 hop | h_14 hop =>
    exact .inr (decodeF3_error h (fun _ _ _ => rfl) (fun _ _ _ => BitVec.eq_of_toNat_eq hop.symm) (fun _ _ _ => rfl))
  case h_23 =>
    cases h
    refine .inl ⟨rfl, ?_⟩
    simp only [imp_false] at *
    omega

/-- Argument checks are made for the opcodes that have an argument. -/
theorem opcode_of_arity_pos : ∀ row ∈ opcodeMap, 0 < row.arity → row.code ≤ 21 ∧ row.code ∉ [0, 18, 21] := by
  decide

theorem arity_le_three : ∀ row ∈ opcodeMap, row.arity ≤ 3 := by
  decide

/-- The write-role opcodes (R74). -/
theorem opcode_of_role_write :
    ∀ row ∈ opcodeMap, row.role = .write → row.code ∈ [1, 3, 4, 5, 9, 10, 11, 12, 13, 14, 15, 20] := by
  decide

/-- The fault of an argument check: the argument is outside its legal class (R202, R203). -/
theorem faultReason_of_checkArgs {s : State} {row : OpcodeRow} (hrow : row ∈ opcodeMap)
    (hcode : row.code = s.opcodeWord.toNat) {n : Nat} (hn : n ≤ row.arity) {e : Exn}
    (h : checkArgs row.role 0 ((s.argWordsTo n).map classify) s = .error e) (args : List Word) :
    FaultReason s ⟨e.cause, s.pc, some s.opcodeWord, args, e.value⟩ := by
  have hword {j : Nat} {o : Operand} (hj : ((s.argWordsTo n).map classify)[j]? = some o) :
      j < n ∧ classify (s.argWord j) = o := by
    simpa [State.argWordsTo, List.getElem?_eq_some_iff] using hj
  rcases checkArgs_error h with ⟨hc, j, w, hj, hv⟩ | ⟨hc, hrole, -, v, hj⟩
  · obtain ⟨hjn, hw⟩ := hword hj
    obtain ⟨rfl, hge⟩ := eq_of_classify_invalid hw
    obtain ⟨hle, hmem⟩ := opcode_of_arity_pos row hrow (by omega)
    have := arity_le_three row hrow
    simp only [FaultReason, hc, ← hcode]
    exact ⟨hle, hmem, j, by omega, hge, hv⟩
  · have hw := toNat_of_classify_lit (hword hj).2
    simp only [FaultReason, hc, ← hcode]
    exact ⟨opcode_of_role_write row hrow hrole, hw ▸ Nat.le_of_lt_succ v.isLt⟩

/-- The fault of the fetch: no opcode word, an unknown one, or arguments that are cut off (R201, R205, R212). -/
theorem fetchFault_reason {s : State} {e : DecodeError} (hd : decode s.window = .error e) :
    ∃ r, s.fetchFault e = s.faulted r ∧ FaultReason s r := by
  by_cases hp : s.pc.toNat < 32768
  · have hd' := hd
    rw [window_eq_cons hp] at hd'
    rcases decode_error_cases hd' with ⟨rfl, hop⟩ | ⟨i, hop, rfl, hlt⟩
    · exact ⟨_, rfl, hop⟩
    · obtain ⟨-, hend, hwords, -⟩ := truncated_words hd
      set args := wordsFrom s.mem (s.pc.toNat + 1) 3
      rw [State.fetchFault]
      cases hc : checkArgs i.role 0 (args.map classify) s with
      | ok u => exact ⟨_, rfl, nofun, fun _ => hend.ge⟩
      | error x =>
        obtain ⟨row, hrow, hcode, hrole, harity⟩ := exists_row_of_instr i
        rw [hwords, ← hrole] at hc
        rw [hop] at hcode
        exact ⟨_, rfl, faultReason_of_checkArgs hrow hcode (by omega) hc _⟩
  · rw [window_eq_nil (Nat.not_lt.1 hp)] at hd
    cases hd
    exact ⟨_, rfl, fun _ => Nat.not_lt.1 hp, fun hn => absurd rfl hn⟩

/-- The fault of an execute stage (R204, R206, R207, R208). -/
theorem faultReason_of_executeFault {s : State} {i : Instr} {rest : List Word} (hd : decode s.window = .ok (i, rest))
    {e : Exn} (h : ExecuteFault i s e) (args : List Word) :
    FaultReason s ⟨e.cause, s.pc, some s.opcodeWord, args, e.value⟩ := by
  obtain ⟨hop, -, -⟩ := window_of_decode hd
  cases i
  case push a =>
    obtain ⟨rfl, hfull⟩ := h
    exact ⟨by simp [← hop, Instr.opcode], hfull⟩
  case call a =>
    obtain ⟨rfl, hfull⟩ := h
    exact ⟨by simp [← hop, Instr.opcode], hfull⟩
  case pop a =>
    rcases h with ⟨rfl, hs⟩ | ⟨w, tail, hs, hw, rfl⟩
    · exact ⟨hs, .inl (by rw [← hop]; rfl)⟩
    · exact ⟨w.toNat, rfl, hw, .inl ⟨by rw [← hop]; rfl, w, by rw [hs]; rfl, rfl⟩⟩
  case ret =>
    obtain ⟨rfl, hs, hparam⟩ := h
    exact ⟨hs, .inr ⟨by rw [← hop]; rfl, hparam⟩⟩
  case mod a b c =>
    obtain ⟨rfl, hc⟩ := h
    rw [argument_of_decode (k := 2) hd rfl] at hc
    exact ⟨by rw [← hop]; rfl, hc⟩
  case rmem a b =>
    obtain ⟨vb, hb, hw, rfl⟩ := h
    rw [argument_of_decode (k := 1) hd rfl] at hb
    exact ⟨_, rfl, hw, .inr (.inl ⟨by rw [← hop]; rfl, vb, hb, rfl⟩)⟩
  case in_ a =>
    obtain ⟨c, tail, hi, hc, rfl⟩ := h
    exact ⟨c, rfl, hc, .inr (.inr ⟨by rw [← hop]; rfl, by rw [hi]; rfl⟩)⟩
  all_goals exact h.elim

/-- The fault of a decoded instruction: an argument check, or its execute stage (R212). -/
theorem faultReason_of_decode {s : State} {i : Instr} {rest : List Word} (hd : decode s.window = .ok (i, rest))
    {e : Exn} (h : checkArgs i.role 0 i.args s = .error e ∨ ExecuteFault i s e) (args : List Word) :
    FaultReason s ⟨e.cause, s.pc, some s.opcodeWord, args, e.value⟩ := by
  rcases h with h | h
  · obtain ⟨hop, -, hwords⟩ := window_of_decode hd
    obtain ⟨row, hrow, hcode, hrole, harity⟩ := exists_row_of_instr i
    rw [decode_args hd, hwords, ← hrole] at h
    rw [hop] at hcode
    exact faultReason_of_checkArgs hrow hcode harity.ge h args
  · exact faultReason_of_executeFault hd h args

/-- A step that faults has a reason for it. -/
theorem step_faultReason {s t : State} (hr : s.status = .running) (hstep : step s = .next t) {r : FaultRecord}
    (ht : t.status = .faulted r) : FaultReason s r := by
  rcases step_cases hstep with ⟨hn, -⟩ | ⟨e, -, hd, rfl⟩ | ⟨i, rest, -, hd, he⟩
  · exact absurd hr hn
  · obtain ⟨r', hf, hreason⟩ := fetchFault_reason hd
    rw [hf] at ht
    cases ht
    exact hreason
  · rcases exec_cases he with heff | ⟨e, hfault, rfl⟩
    · rcases effect_status heff hr with hst | ⟨hst, -⟩ <;> rw [hst] at ht <;> cases ht
    · obtain ⟨hop, -, -⟩ := window_of_decode hd
      cases ht
      rw [hop]
      exact faultReason_of_decode hd hfault _

/-- Settles O16: each clause is the reason for its cause. -/
theorem faultCausesByOpcode : Obligations.FaultCausesByOpcode := by
  intro s t hr hstep r ht
  have h := step_faultReason hr hstep ht
  unfold FaultReason at h
  refine ⟨?_, ?_, ?_, ?_, ?_, ?_, ?_, ?_⟩ <;> intro hc <;> simpa only [hc] using h

end Sys2Proof.Machine
end

/-! ### Encoding and decoding

The round trips, the class and the resolution of an argument word, and the step at a decoded instruction. -/

section
namespace Sys2Proof.Machine

/-- Settles O6: the arguments of a well-formed instruction are classes of words, so their words classify back to them. -/
theorem decodeEncodeRoundTrip : Obligations.DecodeEncodeRoundTrip :=
  fun _ rest hwf => decode_encode_of_canonical (Instr.canonical_args hwf) rest

/-- An instruction's words are as many as its length says (R84). -/
theorem length_encode (i : Instr) : (encode i).length = i.length := by
  rw [encode, List.length_cons, Instr.argWords, List.length_map, Instr.length, Nat.add_comm]

/-- Settles O7: a decoded instruction keeps the words it was read from, and every instruction has a row of the map. -/
theorem encodeDecodeRoundTrip : Obligations.EncodeDecodeRoundTrip := by
  intro ws i rest hd
  obtain ⟨row, hrow, hcode, -, harity⟩ := exists_row_of_instr i
  refine ⟨?_, length_encode i, row, hrow, hcode.symm, by rw [Instr.length, harity]⟩
  cases ws with
  | nil => cases hd
  | cons op ws =>
    obtain ⟨hop, hargs⟩ := decode_words hd
    rw [encode, List.cons_append, hop, hargs]

/-- Settles O3, by the law of each class. -/
theorem argumentWordClasses : Obligations.ArgumentWordClasses := by
  refine fun w => ⟨fun h => ?_, fun h1 h2 => ?_, classify_of_ge⟩
  · have hlit := classify_of_le_valueMax h
    exact ⟨_, hlit, (toNat_of_classify_lit hlit).symm⟩
  · exact ⟨⟨w.toNat - 32768, by omega⟩, classify_of_register _ (by simp only; omega), rfl⟩

/-- Settles O4: in each class the operand is known, and the resolutions compute on it. -/
theorem operandResolution : Obligations.OperandResolution := by
  refine fun w k s => ⟨fun h => ?_, fun r h => ?_, fun h => ?_⟩
  · obtain ⟨v, hc, hv⟩ := (argumentWordClasses w).1 h
    rw [hc, ← hv]
    exact ⟨⟨v, rfl, rfl⟩, rfl, rfl⟩
  · rw [classify_of_register r h]
    exact ⟨rfl, rfl, rfl⟩
  · rw [classify_of_ge h]
    exact ⟨rfl, rfl, rfl⟩

/-- Settles O5, by evaluating the decoder on each sample. -/
theorem sampleWordsDecode : Obligations.SampleWordsDecode :=
  ⟨rfl, rfl, rfl, rfl, rfl, rfl, rfl, rfl, rfl⟩

/-- Settles O11, by the law of the step at an instruction. -/
theorem stepRunsDecodedInstruction : Obligations.StepRunsDecodedInstruction :=
  fun _ _ _ hr hd => step_of_decode hr hd

end Sys2Proof.Machine
end

/-! ### Unknown opcodes and illegal arguments -/

section
namespace Sys2Proof.Machine

/-- An opcode word outside [0, 21] is rejected, whatever stands after it (R82). -/
theorem decode_of_unknown {op : Word} (h : 22 ≤ op.toNat) (ws : List Word) :
    decode (op :: ws) = .error (.unknownOpcode op) := by
  rw [decode, decodeOpcode]
  split
  case h_23 => rfl
  all_goals omega

/-- Settles O8: the window begins with the opcode word, and the fetch takes the fault of its rejection. -/
theorem unknownOpcodeFaults : Obligations.UnknownOpcodeFaults := by
  intro s hr hp hop
  have hd : decode s.window = .error (.unknownOpcode s.opcodeWord) := by
    rw [window_eq_cons hp, decode_of_unknown hop]
  exact step_of_decode_error hr hd

/-- The arguments from argument `k` on are each in their legal class (R76, R77, R83). -/
def legalArgs (role : Role) (k : Nat) : List Operand → Bool
  | [] => true
  | o :: os => (if role = .write ∧ k = 0 then o.isDest else o.readable) && legalArgs role (k + 1) os

/-- A well-formed instruction is one whose arguments are legal for its role (R83). -/
theorem wellFormed_eq_legalArgs (i : Instr) : i.wellFormed = legalArgs i.role 0 i.args := by
  cases i <;> simp [Instr.wellFormed, Instr.role, Instr.args, legalArgs, Bool.and_assoc]

/-- The argument checks raise a fault at the first argument outside its legal class (R81, R212). -/
theorem checkArgs_of_illegal {role : Role} {k : Nat} {os : List Operand} (s : State)
    (h : legalArgs role k os = false) : ∃ e, checkArgs role k os s = .error e := by
  induction os generalizing k with
  | nil => cases h
  | cons o os ih =>
    rw [legalArgs, Bool.and_eq_false_iff] at h
    rw [checkArgs_cons]
    split
    case isTrue hw =>
      rw [if_pos hw] at h
      cases hd : dest o with
      | error e => exact ⟨e, rfl⟩
      | ok d =>
        obtain rfl := dest_eq_ok_iff.1 hd
        exact ih (h.resolve_left nofun)
    case isFalse hw =>
      rw [if_neg hw] at h
      cases hv : resolve k o s with
      | error e => exact ⟨e, rfl⟩
      | ok v =>
        refine ih (h.resolve_left fun ho => ?_)
        obtain ⟨e, he, -⟩ := resolve_error_of_not_readable (k := k) (s := s) ho
        rw [hv] at he
        cases he

/-- The cause of an argument fault; for InvalidDestination the value is the literal that stands as argument 0 (R202, R203). -/
theorem checkArgs_error_cause {role : Role} {os : List Operand} {s : State} {e : Exn}
    (h : checkArgs role 0 os s = .error e) :
    e.cause = .invalidOperand ∨
      (e.cause = .invalidDestination ∧ ∃ v, os.head? = some (.lit v) ∧ e.value = some v.toNat) := by
  rcases checkArgs_error h with ⟨hc, -⟩ | ⟨hc, rfl, -, v, hv⟩
  · exact .inl hc
  · rw [← List.head?_eq_getElem?] at hv
    obtain ⟨os, rfl⟩ := List.head?_eq_some_iff.1 hv
    rw [checkArgs_write_zero] at h
    cases h
    exact .inr ⟨rfl, v, rfl, rfl⟩

/-- Settles O10: an illegal argument fails the argument checks, whose fault `exec` takes before any effect. -/
theorem illegalArgumentsFault : Obligations.IllegalArgumentsFault := by
  intro i s hwf
  rw [wellFormed_eq_legalArgs] at hwf
  obtain ⟨e, he⟩ := checkArgs_of_illegal s hwf
  exact ⟨_, exec_of_bad_args he, rfl, rfl, checkArgs_error_cause he⟩

end Sys2Proof.Machine
end

/-! ### The disassembler -/

section
namespace Sys2Proof.Machine

/-- Settles O60, by the law of each class. -/
theorem argumentsShownRaw : Obligations.ArgumentsShownRaw := by
  refine fun w => ⟨fun h => ?_, fun r h => ?_, fun h => ?_⟩
  · obtain ⟨v, hc, hv⟩ := (argumentWordClasses w).1 h
    simp only [render, hc, hv]
  · simp only [render, classify_of_register r h]
  · simp only [render, classify_of_ge h]

/-- No two rows of the opcode map share a code (R73). -/
theorem find?_code_opcodeMap : ∀ row ∈ opcodeMap, opcodeMap.find? (fun r => r.code == row.code) = some row := by
  decide

/-- No two rows of the opcode map share a mnemonic (R73). -/
theorem find?_mnemonic_opcodeMap :
    ∀ row ∈ opcodeMap, opcodeMap.find? (fun r => r.mnemonic == row.mnemonic) = some row := by
  decide

/-- The codes of the opcode map end at 21 (R73). -/
theorem code_lt_of_mem_opcodeMap : ∀ row ∈ opcodeMap, row.code < 22 := by
  decide

theorem opcodeRow_of_mem {row : OpcodeRow} (hrow : row ∈ opcodeMap) {op : Word} (h : op.toNat = row.code) :
    opcodeRow op = some row := by
  rw [opcodeRow, h]
  exact find?_code_opcodeMap row hrow

theorem opcodeRow_of_unknown {op : Word} (h : 22 ≤ op.toNat) : opcodeRow op = none := by
  refine List.find?_eq_none.2 fun row hrow => ?_
  have := code_lt_of_mem_opcodeMap row hrow
  simp only [beq_iff_eq]
  omega

/-- The words of a triple with the mnemonic of a row and its arity's number of arguments (R88). -/
theorem assemble_of_mem {row : OpcodeRow} (hrow : row ∈ opcodeMap) (addr : Nat) {args : List Rendered}
    (hlen : args.length = row.arity) :
    assemble ⟨addr, row.mnemonic, args⟩ = some (BitVec.ofNat 16 row.code :: args.map Rendered.toWord) := by
  simp only [assemble, find?_mnemonic_opcodeMap row hrow, if_pos hlen]

/-- The arguments shown for the words at `a` encode back to those words (R92, R93). -/
theorem map_toWord_map_render (s : State) (a n : Nat) :
    ((List.range n).map fun k => render (s.mem.get (a + k))).map Rendered.toWord =
      (List.range n).map fun k => s.read (a + k) := by
  rw [List.map_map]
  exact List.map_congr_left fun k _ => render_toWord _

/-- The word at `a`, then the `n` words after it. -/
theorem map_read_range_succ (s : State) (a n : Nat) :
    ((List.range (1 + n)).map fun k => s.read (a + k)) =
      s.read a :: (List.range n).map fun k => s.read (a + 1 + k) := by
  rw [Nat.add_comm 1 n, List.range_succ_eq_map, List.map_cons, List.map_map]
  refine congrArg _ (List.map_congr_left fun k _ => ?_)
  rw [Function.comp_apply, Nat.succ_eq_add_one, Nat.add_assoc, Nat.add_comm 1 k]

/-- Settles O59: the row of the opcode word is found again by its mnemonic, and each shown argument encodes back. -/
theorem disassemblyReassembles : Obligations.DisassemblyReassembles := by
  refine fun unknown s a ha => ⟨fun row hrow hcode => ?_, fun h => ?_⟩
  · have hfind : opcodeRow (s.mem.get a) = some row := opcodeRow_of_mem hrow hcode
    refine ⟨fun hfits => ?_, fun hpast => ?_⟩
    · refine ⟨⟨a, row.mnemonic, (List.range row.arity).map fun k => render (s.mem.get (a + 1 + k))⟩, ?_, rfl, rfl, ?_⟩
      · simp only [disassembleAt, if_pos ha, hfind, if_pos hfits]
      · rw [assemble_of_mem hrow a (by simp), map_toWord_map_render, map_read_range_succ, ← hcode,
          BitVec.ofNat_toNat, BitVec.setWidth_eq]
    · simp only [disassembleAt, if_pos ha, hfind, if_neg (Nat.not_lt.2 hpast)]
  · have hfind : opcodeRow (s.mem.get a) = none := opcodeRow_of_unknown h
    simp only [disassembleAt, if_pos ha, hfind]

end Sys2Proof.Machine
end

/-! ### The faults of the fetch and decode stage

An opcode word that has a row in the opcode map decodes to an instruction with that row's role and arity, or its
arguments are cut off by the end of memory. Either way the argument checks run over the argument words there are, and the
first fault among them is the fault of the step. -/

section
namespace Sys2Proof.Machine

/-- The row of an instruction's opcode gives its role and its arity (R73, R74). -/
theorem role_arity_of_row {row : OpcodeRow} (hrow : row ∈ opcodeMap) {i : Instr} (h : i.opcode.toNat = row.code) :
    i.role = row.role ∧ i.args.length = row.arity := by
  obtain ⟨row', hrow', hcode, hrole, harity⟩ := exists_row_of_instr i
  have hsame : row' = row :=
    Option.some.inj ((opcodeRow_of_mem hrow' hcode.symm).symm.trans (opcodeRow_of_mem hrow h))
  subst hsame
  exact ⟨hrole.symm, harity.symm⟩

/-- What the words at `pc` decode to, where the opcode word has a row in the map (R73, R79). -/
theorem decode_window_of_row {s : State} {row : OpcodeRow} (hrow : row ∈ opcodeMap) (hp : s.pc.toNat < 32768)
    (hop : s.opcodeWord.toNat = row.code) :
    (∃ i rest, decode s.window = .ok (i, rest) ∧ i.opcode = s.opcodeWord ∧ i.role = row.role ∧
        i.argWords = s.argWordsTo row.arity ∧ s.pc.toNat + row.arity < 32768) ∨
      ∃ n < row.arity, s.pc.toNat + 1 + n = 32768 ∧
        decode s.window = .error (.truncated s.opcodeWord row.role (s.argWordsTo n)) := by
  cases hd : decode s.window with
  | ok d =>
    obtain ⟨hopc, hlt, hwords⟩ := window_of_decode (i := d.1) (rest := d.2) hd
    obtain ⟨hrole, harity⟩ := role_arity_of_row hrow (hopc ▸ hop)
    rw [harity] at hlt hwords
    exact .inl ⟨d.1, d.2, rfl, hopc, hrole, hwords, hlt⟩
  | error e =>
    have hd' := hd
    rw [window_eq_cons hp] at hd'
    rcases decode_error_cases hd' with ⟨-, hunknown⟩ | ⟨i, hopc, rfl, hshort⟩
    · have := code_lt_of_mem_opcodeMap row hrow
      omega
    · obtain ⟨hrole, harity⟩ := role_arity_of_row hrow (hopc ▸ hop)
      obtain ⟨-, hend, hwords, -⟩ := truncated_words hd
      refine .inr ⟨_, harity ▸ hshort, hend, ?_⟩
      rw [← hwords, hrole]

/-- Earlier arguments that are legal pass their checks, and argument `k` is checked next (R212). -/
theorem checkArgs_argWordsTo {role : Role} {s : State} {n k : Nat} (hk : k ≤ n)
    (hlegal : ∀ j < k, argLegal role j (s.argWord j)) :
    checkArgs role 0 ((s.argWordsTo n).map classify) s =
      checkArgs role k (((s.argWordsTo n).drop k).map classify) s := by
  have h := checkArgs_skip (role := role) (s := s) (s.argWordsTo n) 0 k (by rwa [argWordsTo_length])
    (fun j hj => by simpa [State.argWordsTo] using hlegal j hj)
  rwa [Nat.zero_add] at h

theorem argWordsTo_drop {s : State} {n k : Nat} (h : k < n) :
    (s.argWordsTo n).drop k = s.argWord k :: (s.argWordsTo n).drop (k + 1) := by
  rw [List.drop_eq_getElem_cons (by rwa [argWordsTo_length])]
  simp [State.argWordsTo]

/-- An invalid argument word fails its check in either role (R81, R202). -/
theorem checkArgs_of_invalid {w : Word} (h : 32776 ≤ w.toNat) (role : Role) (k : Nat) (os : List Operand) (s : State) :
    checkArgs role k (classify w :: os) s = .error ⟨.invalidOperand, k + 1, some w.toNat⟩ := by
  rw [classify_of_ge h, checkArgs_cons]
  split
  case isTrue hw => rw [hw.2]; rfl
  case isFalse => rfl

/-- A literal word fails its check where a register is written (R77, R203). -/
theorem checkArgs_of_literal_dest {w : Word} (h : w.toNat ≤ 32767) (os : List Operand) (s : State) :
    checkArgs .write 0 (classify w :: os) s = .error ⟨.invalidDestination, 1, some w.toNat⟩ := by
  obtain ⟨v, hc, hv⟩ := (argumentWordClasses w).1 h
  rw [hc, checkArgs_write_zero, ← hv]
  rfl

section
variable {s : State} {row : OpcodeRow} (hr : s.status = .running) (hrow : row ∈ opcodeMap)
  (hp : s.pc.toNat < 32768) (hop : s.opcodeWord.toNat = row.code) {k : Nat} (hk : k < row.arity)
  (hlegal : ∀ j < k, argLegal row.role j (s.argWord j))
include hr hrow hp hop hk hlegal

/-- The first argument that fails its check gives the fault of the step, whether or not a later one can be fetched
(R212). -/
theorem step_of_argument_fault (hin : s.pc.toNat + 1 + k < 32768) {cause : Cause} {value : Option Nat}
    (he : ∀ os, checkArgs row.role k (classify (s.argWord k) :: os) s = .error ⟨cause, k + 1, value⟩) :
    step s = .next (s.faulted ⟨cause, s.pc, some s.opcodeWord, s.argWordsTo (k + 1), value⟩) := by
  have hcheck {n : Nat} (hn : k < n) :
      checkArgs row.role 0 ((s.argWordsTo n).map classify) s = .error ⟨cause, k + 1, value⟩ := by
    rw [checkArgs_argWordsTo hn.le hlegal, argWordsTo_drop hn, List.map_cons, he]
  rcases decode_window_of_row hrow hp hop with ⟨i, rest, hd, hopc, hrole, hwords, -⟩ | ⟨n, -, hend, hd⟩
  · have hargs : checkArgs i.role 0 i.args s = .error ⟨cause, k + 1, value⟩ := by
      rw [hrole, decode_args hd, hwords, hcheck hk]
    rw [step_of_decode hr hd, exec_of_bad_args hargs, hopc, hwords, argWordsTo_take s hk, takeFault_eq_faulted]
  · have hn : k < n := by omega
    simp only [step_of_decode_error hr hd, State.fetchFault, hcheck hn, argWordsTo_take s (Nat.succ_le_of_lt hn),
      takeFault_eq_faulted]

/-- An argument past the end of memory, after legal ones, is AddressError (R58, R205). -/
theorem step_of_argument_past_end (hend : s.pc.toNat + 1 + k = 32768) :
    step s = .next (s.faulted ⟨.addressError, s.pc, some s.opcodeWord, s.argWordsTo k, some 32768⟩) := by
  rcases decode_window_of_row hrow hp hop with ⟨i, rest, -, -, -, -, hlt⟩ | ⟨n, -, hend', hd⟩
  · omega
  · obtain rfl : n = k := by omega
    have hcheck : checkArgs row.role 0 ((s.argWordsTo n).map classify) s = .ok () := by
      rw [checkArgs_argWordsTo le_rfl hlegal, List.drop_of_length_le (argWordsTo_length s n).le, List.map_nil,
        checkArgs_nil]
    rw [step_of_decode_error hr hd, State.fetchFault, hcheck, argWordsTo_length, hend, takeFault_eq_faulted]

end

/-- A fetch of the opcode word past the end of memory is AddressError with no opcode word (R58, R205, R210). -/
theorem step_of_pc_past_end {s : State} (hr : s.status = .running) (hp : 32768 ≤ s.pc.toNat) :
    step s = .next (s.faulted ⟨.addressError, s.pc, none, [], some s.pc.toNat⟩) := by
  have hd : decode s.window = .error .noOpcode := by rw [window_eq_nil hp]; rfl
  rw [step_of_decode_error hr hd, State.fetchFault, takeFault_eq_faulted]

/-- The faults of fetching and decoding, for a row of the opcode map (R212). -/
theorem decodeFaults_of_row {row : OpcodeRow} (hrow : row ∈ opcodeMap) :
    DecodeFaults row.code row.arity row.role := by
  refine fun s hr => ⟨step_of_pc_past_end hr, fun hp hop k hk hlegal => ⟨?_, fun hin => ⟨fun hw => ?_, ?_⟩⟩⟩
  · exact step_of_argument_past_end hr hrow hp hop hk hlegal
  · exact step_of_argument_fault hr hrow hp hop hk hlegal hin fun os => checkArgs_of_invalid hw _ _ os s
  · rintro hrole rfl hw
    refine step_of_argument_fault hr hrow hp hop hk hlegal hin fun os => ?_
    rw [hrole, checkArgs_of_literal_dest hw]

end Sys2Proof.Machine
end

/-! ### Control transfer, halt and noop

What each instruction of 41_control.md answers, as one equation per case, and the frames of the states it answers. -/

section
namespace Sys2Proof.Machine

theorem onlyPc_jump (s : State) (w : Word) : OnlyPc s (s.jump w) :=
  ⟨fun _ => rfl, fun _ => rfl, rfl, rfl, rfl, rfl, rfl⟩

theorem onlyPc_advance (s : State) (n : Nat) : OnlyPc s (s.advance n) :=
  ⟨fun _ => rfl, fun _ => rfl, rfl, rfl, rfl, rfl, rfl⟩

theorem onlyPcStatus_advance_halt (s : State) (n : Nat) : OnlyPcStatus s (s.advance n).halt :=
  ⟨fun _ => rfl, fun _ => rfl, rfl, rfl, rfl, rfl⟩

/-- A jump after a change of the stack. -/
theorem onlyStack_jump (s : State) (stack : List Word) (w : Word) :
    OnlyStack s (State.jump { s with stack := stack } w) :=
  ⟨fun _ => rfl, fun _ => rfl, rfl, rfl, rfl, rfl⟩

theorem exec_halt (s : State) : exec .halt s = .next (s.advance 1).halt := rfl

theorem exec_noop (s : State) : exec .noop s = .next (s.advance 1) := rfl

section
variable {s : State} {a b : Operand} {va vb : Value} (ha : s.operand a = some va)
include ha

theorem exec_jmp_of_operand : exec (.jmp a) s = .next (s.jump va.toWord) :=
  readUnary_legal _ ha

theorem exec_jt_of_operands (hb : s.operand b = some vb) :
    exec (.jt a b) s = .next (if va.toNat ≠ 0 then s.jump vb.toWord else s.advance 3) := by
  rw [exec, execJt, readBinary_legal _ ha hb, finish_ok]
  simp only [isNonzero_iff]
  rfl

theorem exec_jf_of_operands (hb : s.operand b = some vb) :
    exec (.jf a b) s = .next (if va.toNat ≠ 0 then s.advance 3 else s.jump vb.toWord) := by
  rw [exec, execJf, readBinary_legal _ ha hb, finish_ok]
  simp only [isNonzero_iff]
  rfl

/-- `call` with room on the stack (R115). -/
theorem exec_call_of_room (hroom : ∀ n, s.params.stackCapacity = some n → s.stack.length < n) :
    exec (.call a) s = .next (State.jump { s with stack := (s.pc + 2) :: s.stack } va.toWord) := by
  rw [exec, execCall, readUnary_legal _ ha, pushWord_of_room hroom]
  rfl

/-- `call` on a full stack (R115, R208). -/
theorem exec_call_of_full (hfull : s.params.stackCapacity = some s.stack.length) :
    exec (.call a) s = .next (s.faulted ⟨.stackOverflow, s.pc, some 17, [a.toWord], none⟩) := by
  rw [exec, execCall, readUnary_legal _ ha, pushWord_of_full hfull]
  rfl

end

/-- `ret` on a stack that is not empty: the popped word is taken with no check (R116). -/
theorem exec_ret_of_cons {s : State} {w : Word} {rest : List Word} (h : s.stack = w :: rest) :
    exec .ret s = .next (State.jump { s with stack := rest } w) := by
  simp only [exec, execRet, popWord, h, finish_ok]

/-- `ret` on an empty stack halts, where the parameter says so (R116, D6). -/
theorem exec_ret_of_empty_halt {s : State} (h : s.stack = []) (hparam : s.params.retOnEmpty = .halt) :
    exec .ret s = .next (s.advance 1).halt := by
  simp only [exec, execRet, popWord, h, hparam, finish_ok]
  rfl

/-- `ret` on an empty stack faults, where the parameter says so (R116, R204). -/
theorem exec_ret_of_empty_fault {s : State} (h : s.stack = []) (hparam : s.params.retOnEmpty = .fault) :
    exec .ret s = .next (s.faulted ⟨.stackUnderflow, s.pc, some 18, [], none⟩) := by
  simp only [exec, execRet, popWord, h, hparam, finish_error]
  rfl

/-- Settles O30: `halt` commits a state that is not RUNNING, from which no step is taken. -/
theorem haltStopsEngine : Obligations.HaltStopsEngine :=
  ⟨fun _ => rfl, decodeFaults_of_row (row := ⟨0, "halt", 0, .none⟩) (by decide), fun s =>
    ⟨_, exec_halt s, rfl, rfl, onlyPcStatus_advance_halt s 1, step_of_not_running (by simp)⟩⟩

/-- Settles O31: the word of the resolved target is its value. -/
theorem jmpGoesToTarget : Obligations.JmpGoesToTarget :=
  ⟨fun _ _ => rfl, decodeFaults_of_row (row := ⟨6, "jmp", 1, .read⟩) (by decide), fun s _ va ha =>
    ⟨_, exec_jmp_of_operand ha, Value.toNat_toWord va, onlyPc_jump s _⟩⟩

/-- Settles O32, by the two cases of the first argument. -/
theorem jtJumpsWhenNonzero : Obligations.JtJumpsWhenNonzero := by
  refine ⟨fun _ _ _ => rfl, decodeFaults_of_row (row := ⟨7, "jt", 2, .read⟩) (by decide),
    fun s a b va vb ha hb => ?_⟩
  rw [exec_jt_of_operands ha hb]
  by_cases h : va.toNat = 0
  · rw [if_neg (not_not_intro h)]
    exact ⟨_, rfl, onlyPc_advance s 3, fun hne => absurd h hne, fun _ => rfl⟩
  · rw [if_pos h]
    exact ⟨_, rfl, onlyPc_jump s _, fun _ => Value.toNat_toWord vb, fun hz => absurd hz h⟩

/-- Settles O33, by the two cases of the first argument. -/
theorem jfJumpsWhenZero : Obligations.JfJumpsWhenZero := by
  refine ⟨fun _ _ _ => rfl, decodeFaults_of_row (row := ⟨8, "jf", 2, .read⟩) (by decide),
    fun s a b va vb ha hb => ?_⟩
  rw [exec_jf_of_operands ha hb]
  by_cases h : va.toNat = 0
  · rw [if_neg (not_not_intro h)]
    exact ⟨_, rfl, onlyPc_jump s _, fun _ => Value.toNat_toWord vb, fun hne => absurd h hne⟩
  · rw [if_pos h]
    exact ⟨_, rfl, onlyPc_advance s 3, fun hz => absurd hz h, fun _ => rfl⟩

/-- Settles O34, by the push with room and the push on a full stack. -/
theorem callPushesReturnAddress : Obligations.CallPushesReturnAddress :=
  ⟨fun _ _ => rfl, decodeFaults_of_row (row := ⟨17, "call", 1, .read⟩) (by decide),
    fun s _ va ha hroom => ⟨_, exec_call_of_room ha hroom, rfl, Value.toNat_toWord va, onlyStack_jump s _ _⟩,
    fun _ _ _ ha hfull => exec_call_of_full ha hfull⟩

/-- Settles O35, by the pop and the two choices of the parameter on an empty stack. -/
theorem retPopsOrEnds : Obligations.RetPopsOrEnds :=
  ⟨fun _ => rfl, decodeFaults_of_row (row := ⟨18, "ret", 0, .none⟩) (by decide),
    fun s w rest h => ⟨_, exec_ret_of_cons h, rfl, rfl, onlyStack_jump s rest w⟩,
    fun s h hparam => ⟨_, exec_ret_of_empty_halt h hparam, rfl, rfl, onlyPcStatus_advance_halt s 1⟩,
    fun _ h hparam => exec_ret_of_empty_fault h hparam⟩

/-- Settles O36: `noop` commits the state with `pc` past the opcode word. -/
theorem noopOnlyAdvances : Obligations.NoopOnlyAdvances :=
  ⟨fun _ => rfl, decodeFaults_of_row (row := ⟨21, "noop", 0, .none⟩) (by decide), fun s =>
    ⟨_, exec_noop s, rfl, onlyPc_advance s 1⟩⟩

end Sys2Proof.Machine
end

/-! ### Register move and stack

What each instruction of 42_register_stack.md answers, as one equation per case, and the frames of the states it
answers. -/

section
namespace Sys2Proof.Machine

/-- `pc` past an instruction, after a change of the stack. -/
theorem onlyStack_advance (s : State) (stack : List Word) (n : Nat) :
    OnlyStack s (State.advance { s with stack := stack } n) :=
  ⟨fun _ => rfl, fun _ => rfl, rfl, rfl, rfl, rfl⟩

/-- A write to a register, after a change of the stack. -/
theorem onlyRegStack_writeBack (s : State) (stack : List Word) (i : Instr) (d : Reg) (v : Value) :
    OnlyRegStack d s (State.writeBack { s with stack := stack } i d v) :=
  ⟨fun _ hr => setReg_reg_of_ne { s with stack := stack } v hr, fun _ => rfl, rfl, rfl, rfl, rfl⟩

/-- `set` with a readable source (R130). -/
theorem exec_set_of_operand (d : Reg) {s : State} {b : Operand} {vb : Value} (hb : s.operand b = some vb) :
    exec (.set (.reg d) b) s = .next (s.writeBack (.set (.reg d) b) d vb) :=
  writeUnary_writes _ hb rfl

section
variable {s : State} {a : Operand} {va : Value} (ha : s.operand a = some va)
include ha

/-- `push` with room on the stack (R131). -/
theorem exec_push_of_room (hroom : ∀ n, s.params.stackCapacity = some n → s.stack.length < n) :
    exec (.push a) s = .next (State.advance { s with stack := va.toWord :: s.stack } 2) := by
  rw [exec, execPush, readUnary_legal _ ha, pushWord_of_room hroom]
  rfl

/-- `push` on a full stack (R131, R208, D7). -/
theorem exec_push_of_full (hfull : s.params.stackCapacity = some s.stack.length) :
    exec (.push a) s = .next (s.faulted ⟨.stackOverflow, s.pc, some 2, [a.toWord], none⟩) := by
  rw [exec, execPush, readUnary_legal _ ha, pushWord_of_full hfull]
  rfl

end

/-- `pop` of a word that a register holds: the word goes into the destination and leaves the stack (R132). -/
theorem exec_pop_of_le (d : Reg) {s : State} {w : Word} {rest : List Word} (h : s.stack = w :: rest)
    (hw : w.toNat ≤ 32767) :
    exec (.pop (.reg d)) s =
      .next (State.writeBack { s with stack := rest } (.pop (.reg d)) d (BitVec.ofNat 15 w.toNat)) := by
  simp only [exec, execPop, dest, popWord, h, bind, Except.bind, toRegister_of_le hw]
  rfl

/-- `pop` on an empty stack (R132, R204). -/
theorem exec_pop_of_empty (d : Reg) {s : State} (h : s.stack = []) :
    exec (.pop (.reg d)) s =
      .next (s.faulted ⟨.stackUnderflow, s.pc, some 3, [(Operand.reg d).toWord], none⟩) := by
  simp only [exec, execPop, dest, popWord, h, bind, Except.bind]
  rfl

/-- `pop` of a word that no register holds: the fault is taken from the state before the pop (R132, R207, D5). -/
theorem exec_pop_of_gt (d : Reg) {s : State} {w : Word} {rest : List Word} (h : s.stack = w :: rest)
    (hw : 32768 ≤ w.toNat) :
    exec (.pop (.reg d)) s =
      .next (s.faulted ⟨.registerRange, s.pc, some 3, [(Operand.reg d).toWord], some w.toNat⟩) := by
  simp only [exec, execPop, dest, popWord, h, bind, Except.bind, toRegister_of_gt hw]
  rfl

/-- Settles O37: the write-back puts the resolved source into the destination and moves `pc`. -/
theorem setCopiesValue : Obligations.SetCopiesValue :=
  ⟨fun _ _ _ => rfl, decodeFaults_of_row (row := ⟨1, "set", 2, .write⟩) (by decide),
    fun s d _ vb hb => ⟨_, exec_set_of_operand d hb, writeBack_reg s _ d vb, rfl, onlyReg_writeBack s _ d vb⟩⟩

/-- Settles O38, by the push with room and the push on a full stack; the pushed word is the argument's value. -/
theorem pushPutsValueOnTop : Obligations.PushPutsValueOnTop :=
  ⟨fun _ _ => rfl, decodeFaults_of_row (row := ⟨2, "push", 1, .read⟩) (by decide),
    fun s _ va ha hroom =>
      ⟨_, _, exec_push_of_room ha hroom, rfl, Value.toNat_toWord va, rfl, onlyStack_advance s _ 2⟩,
    fun _ _ _ ha hfull => exec_push_of_full ha hfull⟩

/-- Settles O39, by the three cases of the stack: a top word that fits a register keeps its value as one of 15 bits. -/
theorem popTakesTopWord : Obligations.PopTakesTopWord := by
  refine ⟨fun _ _ => rfl, decodeFaults_of_row (row := ⟨3, "pop", 1, .write⟩) (by decide),
    fun s d w rest h hw => ⟨_, exec_pop_of_le d h hw, ?_, rfl, rfl, onlyRegStack_writeBack s rest _ d _⟩,
    fun _ d h => exec_pop_of_empty d h, fun _ d _ _ h hw => exec_pop_of_gt d h hw⟩
  rw [writeBack_reg, BitVec.toNat_ofNat]
  exact Nat.mod_eq_of_lt (Nat.lt_succ_of_le hw)

end Sys2Proof.Machine
end

/-! ### Comparison

What each instruction of 43_comparison.md answers, and the value of a truth value as a number. -/

section
namespace Sys2Proof.Machine

/-- A truth value is 1 or 0 (R140, R141). -/
theorem truthValue_decide_toNat (p : Prop) [Decidable p] :
    (truthValue (decide p)).toNat = if p then 1 else 0 := by
  by_cases h : p
  · simp [truthValue, h]
  · simp [truthValue, h]

/-- Equal values are equal numbers. -/
theorem value_beq_eq_decide (v w : Value) : (v == w) = decide (v.toNat = w.toNat) := by
  rw [Bool.eq_iff_iff, beq_iff_eq, decide_eq_true_iff, BitVec.toNat_inj]

section
variable (d : Reg) {s : State} {b c : Operand} {vb vc : Value} (hb : s.operand b = some vb) (hc : s.operand c = some vc)
include hb hc

/-- `eq` with readable sources (R140). -/
theorem exec_eq_of_operands :
    exec (.eq (.reg d) b c) s =
      .next (s.writeBack (.eq (.reg d) b c) d (truthValue (decide (vb.toNat = vc.toNat)))) := by
  rw [← value_beq_eq_decide]
  exact writeBinary_writes _ hb hc rfl

/-- `gt` with readable sources (R141). -/
theorem exec_gt_of_operands :
    exec (.gt (.reg d) b c) s =
      .next (s.writeBack (.gt (.reg d) b c) d (truthValue (decide (vb.toNat > vc.toNat)))) :=
  writeBinary_writes _ hb hc rfl

end

/-- Settles O40: the write-back puts the truth value of the equality into the destination and moves `pc`. -/
theorem eqWritesOneOrZero : Obligations.EqWritesOneOrZero := by
  refine ⟨fun _ _ _ _ => rfl, decodeFaults_of_row (row := ⟨4, "eq", 3, .write⟩) (by decide),
    fun s d b c vb vc hb hc => ⟨_, exec_eq_of_operands d hb hc, ?_, rfl, onlyReg_writeBack s _ d _⟩⟩
  rw [writeBack_reg, truthValue_decide_toNat]

/-- Settles O41: the write-back puts the truth value of the comparison as numbers into the destination and moves `pc`. -/
theorem gtComparesUnsigned : Obligations.GtComparesUnsigned := by
  refine ⟨fun _ _ _ _ => rfl, decodeFaults_of_row (row := ⟨5, "gt", 3, .write⟩) (by decide),
    fun s d b c vb vc hb hc => ⟨_, exec_gt_of_operands d hb hc, ?_, rfl, onlyReg_writeBack s _ d _⟩⟩
  rw [writeBack_reg, truthValue_decide_toNat]

end Sys2Proof.Machine
end

/-! ### Arithmetic

What each instruction of 44_arithmetic.md answers, and why the remainder needs no reduction. -/

section
namespace Sys2Proof.Machine

/-- A remainder is at most its dividend, so the reduction of R153 leaves it as it is (R152). -/
theorem wrap_mod_toNat (v w : Value) : (wrap (v.toNat % w.toNat)).toNat = v.toNat % w.toNat := by
  rw [wrap_toNat]
  exact Nat.mod_eq_of_lt (Nat.lt_of_le_of_lt (Nat.mod_le _ _) v.isLt)

section
variable (d : Reg) {s : State} {b c : Operand} {vb vc : Value} (hb : s.operand b = some vb) (hc : s.operand c = some vc)
include hb hc

/-- `add` with readable sources (R150). -/
theorem exec_add_of_operands :
    exec (.add (.reg d) b c) s = .next (s.writeBack (.add (.reg d) b c) d (wrap (vb.toNat + vc.toNat))) :=
  writeBinary_writes _ hb hc rfl

/-- `mult` with readable sources (R151). -/
theorem exec_mult_of_operands :
    exec (.mult (.reg d) b c) s = .next (s.writeBack (.mult (.reg d) b c) d (wrap (vb.toNat * vc.toNat))) :=
  writeBinary_writes _ hb hc rfl

/-- `mod` with readable sources and a divisor that is not 0 (R152). -/
theorem exec_mod_of_ne_zero (h : vc.toNat ≠ 0) :
    exec (.mod (.reg d) b c) s = .next (s.writeBack (.mod (.reg d) b c) d (wrap (vb.toNat % vc.toNat))) := by
  have hne : vc ≠ 0 := fun e => h (congrArg BitVec.toNat e)
  exact writeBinary_writes _ hb hc (if_neg hne)

/-- `mod` with readable sources and a divisor of 0: a fault with all three argument words (R152, R206, R210). -/
theorem exec_mod_of_zero (h : vc.toNat = 0) :
    exec (.mod (.reg d) b c) s = .next (s.faulted
      ⟨.arithmeticError, s.pc, some 11, [(Operand.reg d).toWord, b.toWord, c.toWord], none⟩) := by
  have hzero : vc = 0 := BitVec.eq_of_toNat_eq h
  rw [exec, execMod, writeBinary_legal _ hb hc, if_pos hzero]
  rfl

end

/-- Settles O42: the write-back puts the sum, reduced mod 32768, into the destination and moves `pc`. -/
theorem addModulo32768 : Obligations.AddModulo32768 := by
  refine ⟨fun _ _ _ _ => rfl, decodeFaults_of_row (row := ⟨9, "add", 3, .write⟩) (by decide),
    fun s d b c vb vc hb hc => ⟨_, exec_add_of_operands d hb hc, ?_, rfl, onlyReg_writeBack s _ d _⟩⟩
  rw [writeBack_reg, wrap_toNat]

/-- Settles O43: the write-back puts the product, reduced mod 32768, into the destination and moves `pc`. -/
theorem multModulo32768 : Obligations.MultModulo32768 := by
  refine ⟨fun _ _ _ _ => rfl, decodeFaults_of_row (row := ⟨10, "mult", 3, .write⟩) (by decide),
    fun s d b c vb vc hb hc => ⟨_, exec_mult_of_operands d hb hc, ?_, rfl, onlyReg_writeBack s _ d _⟩⟩
  rw [writeBack_reg, wrap_toNat]

/-- Settles O44, by the two cases of the divisor: the remainder is written back, or the step is the fault. -/
theorem modOrArithmeticError : Obligations.ModOrArithmeticError := by
  refine ⟨fun _ _ _ _ => rfl, decodeFaults_of_row (row := ⟨11, "mod", 3, .write⟩) (by decide),
    fun s d b c vb vc hb hc h => ⟨_, exec_mod_of_ne_zero d hb hc h, ?_, rfl, onlyReg_writeBack s _ d _⟩,
    fun _ d _ _ _ _ hb hc h => exec_mod_of_zero d hb hc h⟩
  rw [writeBack_reg, wrap_mod_toNat]

end Sys2Proof.Machine
end

/-! ### Bitwise logic

What each instruction of 45_bitwise.md answers, and the 15-bit complement as a number and bit by bit. -/

section
namespace Sys2Proof.Machine

/-- The 15-bit complement of a value as a number (R162). -/
theorem complement_toNat (v : Value) : (complement v).toNat = 32767 - v.toNat := by
  rw [complement_eq, BitVec.toNat_not]

/-- The 15-bit complement of a value at each of its bits (R162). -/
theorem complement_getLsbD (v : Value) {k : Nat} (hk : k < 15) : (complement v).getLsbD k = !v.getLsbD k := by
  rw [complement_eq, BitVec.getLsbD_not, decide_eq_true hk, Bool.true_and]

section
variable (d : Reg) {s : State} {b c : Operand} {vb vc : Value} (hb : s.operand b = some vb)
include hb

/-- `not` with a readable source (R162). -/
theorem exec_not_of_operand :
    exec (.not (.reg d) b) s = .next (s.writeBack (.not (.reg d) b) d (complement vb)) :=
  writeUnary_writes _ hb rfl

variable (hc : s.operand c = some vc)
include hc

/-- `and` with readable sources (R160). -/
theorem exec_and_of_operands :
    exec (.and (.reg d) b c) s = .next (s.writeBack (.and (.reg d) b c) d (vb &&& vc)) :=
  writeBinary_writes _ hb hc rfl

/-- `or` with readable sources (R161). -/
theorem exec_or_of_operands :
    exec (.or (.reg d) b c) s = .next (s.writeBack (.or (.reg d) b c) d (vb ||| vc)) :=
  writeBinary_writes _ hb hc rfl

end

/-- Settles O45: the write-back puts the bitwise and into the destination and moves `pc`. -/
theorem andOfBits : Obligations.AndOfBits := by
  refine ⟨fun _ _ _ _ => rfl, decodeFaults_of_row (row := ⟨12, "and", 3, .write⟩) (by decide),
    fun s d b c vb vc hb hc => ⟨_, exec_and_of_operands d hb hc, fun k => ?_, rfl, onlyReg_writeBack s _ d _⟩⟩
  rw [writeBack_reg, BitVec.getLsbD_and]

/-- Settles O46: the write-back puts the bitwise or into the destination and moves `pc`. -/
theorem orOfBits : Obligations.OrOfBits := by
  refine ⟨fun _ _ _ _ => rfl, decodeFaults_of_row (row := ⟨13, "or", 3, .write⟩) (by decide),
    fun s d b c vb vc hb hc => ⟨_, exec_or_of_operands d hb hc, fun k => ?_, rfl, onlyReg_writeBack s _ d _⟩⟩
  rw [writeBack_reg, BitVec.getLsbD_or]

/-- Settles O47: the write-back puts the 15-bit complement into the destination and moves `pc`. -/
theorem notIsFifteenBitComplement : Obligations.NotIsFifteenBitComplement := by
  refine ⟨fun _ _ _ => rfl, decodeFaults_of_row (row := ⟨14, "not", 2, .write⟩) (by decide),
    fun s d b vb hb =>
      ⟨_, exec_not_of_operand d hb, ?_, fun k hk => ?_, rfl, onlyReg_writeBack s _ d _⟩⟩
  · rw [writeBack_reg, complement_toNat]
  · rw [writeBack_reg, complement_getLsbD vb hk]

end Sys2Proof.Machine
end

/-! ### Memory load and store

What `rmem` of 46_memory.md answers for each class of memory word, and the frame of the state that `wmem` answers. -/

section
namespace Sys2Proof.Machine

/-- `pc` past an instruction, after a write to one memory word. -/
theorem onlyWord_advance (s : State) (x : Nat) (w : Word) (n : Nat) :
    OnlyWord x s (State.advance { s with mem := s.mem.set x w } n) :=
  ⟨fun _ => rfl, fun _ hne => Memory.get_set_of_ne s.mem w hne, rfl, rfl, rfl, rfl, rfl⟩

section
variable (d : Reg) {s : State} {b : Operand} {vb : Value} (hb : s.operand b = some vb)
include hb

/-- `rmem` of a word that a register holds (R171). -/
theorem exec_rmem_of_le (hw : (s.read vb.toNat).toNat ≤ 32767) :
    exec (.rmem (.reg d) b) s =
      .next (s.writeBack (.rmem (.reg d) b) d (BitVec.ofNat 15 (s.read vb.toNat).toNat)) := by
  refine writeUnary_writes _ hb ?_
  rw [memRead_value]
  exact toRegister_of_le hw

/-- `rmem` of a word that no register holds: a fault with both argument words and the word read (R171, R207, D5). -/
theorem exec_rmem_of_gt (hw : 32768 ≤ (s.read vb.toNat).toNat) :
    exec (.rmem (.reg d) b) s = .next (s.faulted
      ⟨.registerRange, s.pc, some 15, [(Operand.reg d).toWord, b.toWord], some (s.read vb.toNat).toNat⟩) := by
  simp only [exec, execRmem, writeUnary_legal _ hb, memRead_value, bind, Except.bind, toRegister_of_gt hw]
  rfl

end

/-- Settles O48, by the two cases of the word read: one that fits a register keeps its value as one of 15 bits. -/
theorem rmemLoadsWord : Obligations.RmemLoadsWord := by
  refine ⟨fun _ _ _ => rfl, decodeFaults_of_row (row := ⟨15, "rmem", 2, .write⟩) (by decide),
    fun s d b vb hb hw => ⟨_, exec_rmem_of_le d hb hw, ?_, rfl, onlyReg_writeBack s _ d _⟩,
    fun _ d _ _ hb hw => exec_rmem_of_gt d hb hw⟩
  rw [writeBack_reg, BitVec.toNat_ofNat]
  exact Nat.mod_eq_of_lt (Nat.lt_succ_of_le hw)

/-- Settles O49: the one memory write of `wmem` reads back as the value, and its frame is that of the write. -/
theorem wmemStoresWord : Obligations.WmemStoresWord := by
  refine ⟨fun _ _ _ => rfl, decodeFaults_of_row (row := ⟨16, "wmem", 2, .read⟩) (by decide),
    fun s a b va vb ha hb =>
      ⟨_, exec_wmem_of_operands ha hb, fun hm => ?_, rfl, onlyWord_advance s va.toNat vb.toWord 3⟩⟩
  calc ((s.mem.set va.toNat vb.toWord).get va.toNat).toNat
      _ = vb.toWord.toNat := by rw [Memory.get_set_same hm]
      _ = vb.toNat := Value.toNat_toWord vb

end Sys2Proof.Machine
end

/-! ### Character input and output, and the input provider

What `out` and `in` of 47_io.md answer, as one equation per case, the frames of the states they answer, and what the
input provider does with each form of line. -/

section
namespace Sys2Proof.Machine

/-- `pc` past an instruction, after a value was sent on OUT. -/
theorem onlyOutput_emit_advance (s : State) (v : Value) (n : Nat) : OnlyOutput s ((s.emit v).advance n) :=
  ⟨fun _ => rfl, fun _ => rfl, rfl, rfl, rfl, rfl⟩

/-- A write to a register, after a change of the input buffer. -/
theorem onlyRegInput_writeBack (s : State) (codes : List Nat) (i : Instr) (d : Reg) (v : Value) :
    OnlyRegInput d s (State.writeBack { s with inbuf := codes } i d v) :=
  ⟨fun _ hr => setReg_reg_of_ne { s with inbuf := codes } v hr, fun _ => rfl, rfl, rfl, rfl, rfl⟩

/-- `out` with a readable argument (R180). -/
theorem exec_out_of_operand {s : State} {a : Operand} {va : Value} (ha : s.operand a = some va) :
    exec (.out a) s = .next ((s.emit va).advance 2) :=
  readUnary_legal _ ha

/-- `in` on a code that no register holds: the fault is taken from the state with the code in the buffer (R181, R207,
D5). -/
theorem exec_in_of_gt (d : Reg) {s : State} {c : Nat} {rest : List Nat} (h : s.inbuf = c :: rest)
    (hc : 32768 ≤ c) :
    exec (.in_ (.reg d)) s =
      .next (s.faulted ⟨.registerRange, s.pc, some 20, [(Operand.reg d).toWord], some c⟩) := by
  simp only [exec, execIn, dest, h, bind, Except.bind, toRegister_of_gt hc]
  rfl

/-- Settles O22: the only effect on the record of OUT is that of `out`, whose argument is the word after the opcode. -/
theorem outputProducedByOutOnly : Obligations.OutputProducedByOutOnly := by
  intro s t hstep hne
  rcases step_effect hstep with ⟨st, rfl⟩ | ⟨i, rest, hd, -, he⟩
  · exact absurd rfl hne
  · obtain ⟨hop, -, -⟩ := window_of_decode hd
    obtain ⟨-, -, hout⟩ := effect_io he
    obtain ⟨hcode, a, v, harg, hv, e⟩ := hout.resolve_left hne
    rw [← hop, ← argument_zero_class hd harg (operand_canonical hv)]
    exact ⟨hcode, v, hv, e⟩

/-- Settles O50: the resolved argument goes to the end of the record and `pc` moves. -/
theorem outEmitsValue : Obligations.OutEmitsValue :=
  ⟨fun _ _ => rfl, decodeFaults_of_row (row := ⟨19, "out", 1, .read⟩) (by decide),
    fun s _ va ha => ⟨_, exec_out_of_operand ha, rfl, rfl, onlyOutput_emit_advance s va 2⟩⟩

/-- Settles O51, by the three cases of the buffer: a first code that fits a register keeps its value as one of 15
bits. -/
theorem inTakesOneCode : Obligations.InTakesOneCode := by
  refine ⟨fun _ _ => rfl, decodeFaults_of_row (row := ⟨20, "in", 1, .write⟩) (by decide),
    fun s d c rest h hc => ⟨_, exec_in_of_code d h hc, ?_, rfl, rfl, onlyRegInput_writeBack s rest _ d _⟩,
    fun _ d _ _ h hc => exec_in_of_gt d h hc, fun _ d h => exec_in_of_empty d h⟩
  rw [writeBack_reg, BitVec.toNat_ofNat]
  exact Nat.mod_eq_of_lt (Nat.lt_succ_of_le hc)

/-- A delivered line ends the wait: it leaves at least its end in the buffer (R182, R183). -/
theorem lineRequest_primeLine (s : State) (line : List Nat) : (s.primeLine line).lineRequest = false := by
  rw [Bool.eq_false_iff]
  intro h
  obtain ⟨-, hempty, -⟩ := lineRequest_iff.1 h
  exact List.append_ne_nil_of_right_ne_nil line (List.cons_ne_nil _ _) hempty

section
variable {s : State} (hreq : s.lineRequest = true) (followup : List Nat) {line : List Nat}
include hreq

/-- A `save` line with one path: the primed state is what is saved and what the engine goes on from (R186). -/
theorem provideLine_of_save_path {path : List Nat} (h : splitBlanks [] line = [Config.saveWord, path]) :
    provideLine followup line s =
      .ok (.saved path (s.primeLine followup).snapshot (s.primeLine followup)) := by
  simp [provideLine, hreq, h]

/-- A `save` line with no path or with more than one (R186, D21). -/
theorem provideLine_of_save_usage {args : List (List Nat)} (h : splitBlanks [] line = Config.saveWord :: args)
    (hargs : args.length ≠ 1) : provideLine followup line s = .ok .usage := by
  simp only [provideLine, hreq, h, if_true]
  split
  · exact absurd rfl hargs
  · rfl

/-- A line whose first word is not `save`, or that has no word (R186, D21). -/
theorem provideLine_of_not_save (h : (splitBlanks [] line).head? ≠ some Config.saveWord) :
    provideLine followup line s = .ok (.delivered (s.primeLine line)) := by
  cases hw : splitBlanks [] line with
  | nil => simp [provideLine, hreq, hw]
  | cons w args =>
    have hne : w ≠ Config.saveWord := by simpa [hw] using h
    simp [provideLine, hreq, hw, hne]

end

/-- Settles O53, by the three forms of line; a primed buffer is not empty, so the engine is not blocked. -/
theorem reservedSaveLines : Obligations.ReservedSaveLines := fun s followup _ hreq =>
  ⟨fun _ h => ⟨_, provideLine_of_save_path hreq followup h, rfl, rfl, lineRequest_primeLine s followup⟩,
    fun _ h hargs => provideLine_of_save_usage hreq followup h hargs,
    fun h => ⟨_, provideLine_of_not_save hreq followup h, deliverLine_eq_next_iff.2 ⟨hreq, rfl⟩⟩⟩

end Sys2Proof.Machine
end

/-! ### Faults

Every step answers a next state, and a step that faults takes the status FAULTED with a record of the instruction it was
about. -/

section
namespace Sys2Proof.Machine

/-- Each cause at the place of its code (R200, D20). -/
def causesByCode : List Cause :=
  [.unknownOpcode, .invalidOperand, .invalidDestination, .stackUnderflow, .addressError, .arithmeticError,
    .registerRange, .stackOverflow]

theorem causesByCode_getElem? (c : Cause) : causesByCode[c.code - 1]? = some c := by
  cases c <;> rfl

/-- Settles O15: the code of a cause gives the cause back, so no two share one. -/
theorem faultCauseCodes : Obligations.FaultCauseCodes := by
  refine ⟨rfl, fun c e h => Option.some.inj ?_⟩
  rw [← causesByCode_getElem? c, h, causesByCode_getElem? e]

/-- Settles O9, by the faults of a row of the opcode map. -/
theorem decodeFaultsOfEveryOpcode : Obligations.DecodeFaultsOfEveryOpcode :=
  fun _ hrow => decodeFaults_of_row hrow

/-- Every instruction answers a next state: it commits one, or takes a fault (R85, R200). -/
theorem exists_exec_eq_next (i : Instr) (s : State) : ∃ t, exec i s = .next t := by
  obtain ⟨r, hr⟩ := exec_eq_finish i s
  rw [hr]
  exact finish_next i s r

/-- Settles O13: a step is no step at all, an instruction, or the fault of the fetch. -/
theorem stepAlwaysAnswersNext : Obligations.StepAlwaysAnswersNext := by
  intro s
  by_cases hr : s.status = .running
  · cases hd : decode s.window with
    | error e => exact ⟨_, step_of_decode_error hr hd⟩
    | ok d =>
      rw [step_of_decode (i := d.1) (rest := d.2) hr hd]
      exact exists_exec_eq_next d.1 s
  · exact ⟨s, step_of_not_running hr⟩

/-- A record that names the instruction at `pc`: its address, its opcode word where there is one, and argument words
that were fetched after it, in order (R210). -/
def NamesInstruction (s : State) (r : FaultRecord) : Prop :=
  r.faultPc = s.pc ∧ (∀ op, r.opcode = some op → op = s.opcodeWord) ∧ r.args = s.argWordsTo r.args.length

/-- A record of the opcode word and of the first of the argument words. -/
theorem namesInstruction_of_words (s : State) (c : Cause) (n m : Nat) (v : Option Nat) :
    NamesInstruction s ⟨c, s.pc, some s.opcodeWord, (s.argWordsTo n).take m, v⟩ := by
  have htake : (s.argWordsTo n).take m = s.argWordsTo (min m n) := by
    simp only [State.argWordsTo, ← List.map_take, List.take_range]
  refine ⟨rfl, fun op h => (Option.some.inj h).symm, ?_⟩
  rw [htake, argWordsTo_length]

/-- The fault of the fetch is taken with a record that names the instruction (R201, R205, R210). -/
theorem fetchFault_namesInstruction {s : State} {e : DecodeError} (hd : decode s.window = .error e) :
    ∃ r, s.fetchFault e = s.faulted r ∧ NamesInstruction s r := by
  cases e with
  | noOpcode => exact ⟨_, rfl, rfl, nofun, rfl⟩
  | unknownOpcode op =>
    by_cases hp : s.pc.toNat < 32768
    · rw [window_eq_cons hp] at hd
      rcases decode_error_cases hd with ⟨he, -⟩ | ⟨i, -, he, -⟩
      · cases he
        exact ⟨_, rfl, namesInstruction_of_words s _ 0 0 _⟩
      · cases he
    · rw [window_eq_nil (Nat.not_lt.1 hp)] at hd
      cases hd
  | truncated op role args =>
    obtain ⟨rfl, -, hargs, -⟩ := truncated_words hd
    rw [State.fetchFault]
    cases checkArgs role 0 (args.map classify) s with
    | ok u => exact ⟨_, rfl, rfl, fun op h => (Option.some.inj h).symm, hargs⟩
    | error x =>
      rw [hargs]
      exact ⟨_, rfl, namesInstruction_of_words s _ _ _ _⟩

/-- A step that faults changes the status alone, and its record names the instruction (R210, R211). -/
theorem step_fault_namesInstruction {s t : State} (hr : s.status = .running) (hstep : step s = .next t)
    {r : FaultRecord} (ht : t.status = .faulted r) : t = s.faulted r ∧ NamesInstruction s r := by
  have hfault {r' : FaultRecord} (h : t = s.faulted r') (hnames : NamesInstruction s r') :
      t = s.faulted r ∧ NamesInstruction s r := by
    subst h
    cases ht
    exact ⟨rfl, hnames⟩
  rcases step_cases hstep with ⟨hn, -⟩ | ⟨e, -, hd, he⟩ | ⟨i, rest, -, hd, he⟩
  · exact absurd hr hn
  · obtain ⟨r', hf, hnames⟩ := fetchFault_namesInstruction hd
    exact hfault (he.trans hf) hnames
  · rcases exec_cases he with heff | ⟨e, -, hf⟩
    · rcases effect_status heff hr with hst | ⟨hst, -⟩ <;> rw [hst] at ht <;> cases ht
    · obtain ⟨hop, -, hwords⟩ := window_of_decode hd
      rw [hop, hwords] at hf
      exact hfault hf (namesInstruction_of_words s _ _ _ _)

/-- Settles O14: the fault is the status alone, so `pc` is where it was, and from FAULTED no step is taken. -/
theorem faultsArePrecise : Obligations.FaultsArePrecise := by
  intro s t hr hstep r ht
  obtain ⟨hfault, hpc, hop, hargs⟩ := step_fault_namesInstruction hr hstep ht
  have hstays : step t = .next t := step_of_not_running (by rw [ht]; exact nofun)
  exact ⟨hfault, hpc, by rw [hfault, hpc]; rfl, hstays, hop, hargs⟩

end Sys2Proof.Machine
end

/-! ### Snapshots of stopped states

A snapshot holds the memory as its 32768 words, and a memory in canonical form is determined by them. -/

section
namespace Sys2Proof.Machine

/-- An address that is not listed reads 0 (R37). -/
theorem Memory.get_eq_zero_of_ne {m : Memory} {a : Nat} (h : ∀ c ∈ m, c.1 ≠ a) : m.get a = 0 := by
  induction m with
  | nil => rfl
  | cons c t ih =>
    obtain ⟨hc, ht⟩ := List.forall_mem_cons.1 h
    rw [Memory.get, if_neg hc, ih ht]

/-- A memory in canonical form is the memory of its 32768 words (R37, R241). -/
theorem Memory.ofWordsFrom_map_get {m : Memory} (hm : m.wf) :
    Memory.ofWordsFrom 0 ((List.range 32768).map m.get) = m := by
  refine Memory.ext (Memory.wf_ofWordsFrom (by simp)) hm fun a => ?_
  rw [Memory.get_ofWordsFrom, if_pos (Nat.zero_le a), Nat.sub_zero]
  by_cases ha : a < 32768
  · simp [ha]
  · have hzero : m.get a = 0 := Memory.get_eq_zero_of_ne fun c hc => by
      have : c.1 < 32768 := (hm.2 c hc).1
      omega
    simp [ha, hzero]

/-- A word survives its passage through a number. -/
theorem ofNat_comp_toNat (w : Nat) : BitVec.ofNat w ∘ BitVec.toNat = id := by
  funext x
  simp

/-- The snapshot of a state that meets the invariant keeps the engine's invariants (R244). -/
theorem snapshot_valid {s : State} (h : s.Inv) : s.snapshot.valid = true := by
  obtain ⟨-, hpc, -, -⟩ := h
  have hword (w : Word) : w.toNat ≤ 65535 := Nat.le_of_lt_succ w.isLt
  have hvalue (v : Value) : v.toNat ≤ 32767 := Nat.le_of_lt_succ v.isLt
  simp [Snapshot.valid, State.snapshot, hpc, hword, hvalue]

/-- A load of the snapshot of a state that meets the invariant gives the state back, RUNNING, but for what a snapshot
does not hold (R244, log 10). -/
theorem load_snapshot {s : State} (h : s.Inv) (u : State) :
    u.load s.snapshot = .next { s with status := .running, output := u.output, params := u.params } := by
  have hmem : Memory.ofWordsFrom 0 (s.snapshot.mem.map (BitVec.ofNat 16)) = s.mem := by
    have hwords : s.snapshot.mem.map (BitVec.ofNat 16) = (List.range 32768).map s.mem.get := by
      simp [State.snapshot, State.read]
    rw [hwords, Memory.ofWordsFrom_map_get h.1]
  have hregs : s.snapshot.regs.map (BitVec.ofNat 15) = s.regs := by
    simp [State.snapshot, ofNat_comp_toNat]
  have hstack : s.snapshot.stack.map (BitVec.ofNat 16) = s.stack := by
    simp [State.snapshot, ofNat_comp_toNat]
  have hpc : BitVec.ofNat 16 s.snapshot.pc = s.pc := by
    simp [State.snapshot]
  rw [State.load, if_pos (snapshot_valid h), hmem, hregs, hstack, hpc]
  rfl

/-- The host can snapshot a RUNNING engine, the blocked wait among it (R219). -/
theorem hostSnapshot_of_running {s : State} (h : s.status = .running) : s.hostSnapshot = .ok s.snapshot := by
  rw [State.hostSnapshot, h]

/-- The host can snapshot a HALTED engine (R219). -/
theorem hostSnapshot_of_halted {s : State} (h : s.status = .halted) : s.hostSnapshot = .ok s.snapshot := by
  rw [State.hostSnapshot, h]

/-- A FAULTED engine has no snapshot (log 19). -/
theorem hostSnapshot_of_faulted {s : State} {r : FaultRecord} (h : s.status = .faulted r) :
    s.hostSnapshot = .error .saveNotRunning := by
  rw [State.hostSnapshot, h]

/-- The blocked wait takes no step (R182; log 7). -/
theorem step_of_lineRequest {s : State} (h : s.lineRequest = true) : step s = .next s := by
  obtain ⟨-, hwait, -⟩ := blockedInWaitsForLine
  exact (hwait s h).1

/-- Settles O55: neither HALTED nor the blocked wait takes a step or is FAULTED, and a load gives the snapshot's state
back. -/
theorem stoppedStatesCanBeSnapshot : Obligations.StoppedStatesCanBeSnapshot := by
  refine ⟨fun s u hs hstop => ?_, fun s r hf => hostSnapshot_of_faulted hf⟩
  rcases hstop with hhalted | hreq
  · exact ⟨step_of_not_running (by simp [hhalted]), hostSnapshot_of_halted hhalted, load_snapshot hs u⟩
  · obtain ⟨hrunning, -, -⟩ := lineRequest_iff.1 hreq
    exact ⟨step_of_lineRequest hreq, hostSnapshot_of_running hrunning, load_snapshot hs u⟩

end Sys2Proof.Machine
end

/-! ### The debugger

A session's outcome as one equation per case of a session step, and the toggle of a breakpoint. -/

section
namespace Sys2Proof.Machine

/-- A session step takes the engine's step, or none where the commands ran out at a pause (R222). -/
theorem advance_result (d : Debugger) (halfWidth : Nat) (cmds : List Command) (s : State) :
    ∃ d' rs left, d.advance halfWidth cmds s = (d', rs, left, some (step s)) ∨
      d.advance halfWidth cmds s = (d', rs, left, none) := by
  rw [Debugger.advance]
  split
  · rcases d.pause halfWidth s cmds with ⟨d', rs, left, resumed⟩
    cases resumed with
    | true => exact ⟨d', rs, left, .inl rfl⟩
    | false => exact ⟨d', rs, left, .inr rfl⟩
  · exact ⟨d, [], cmds, .inl rfl⟩

/-- A session over an engine that is not RUNNING stays where it is (R86). -/
theorem run_outcome_of_not_running {s : State} (h : s.status ≠ .running) (d : Debugger) (halfWidth : Nat)
    (cmds : List Command) (k : Nat) : (d.run halfWidth cmds s (k + 1)).outcome = .next s := by
  cases hs : s.status with
  | running => exact absurd hs h
  | halted => simp only [Debugger.run, hs]
  | faulted r => simp only [Debugger.run, hs]

section
variable {s : State} (hr : s.status = .running) {d d' : Debugger} {halfWidth : Nat} {cmds left : List Command}
  {rs : List Response}
include hr

/-- A session whose commands run out at a pause stays where it is (R222). -/
theorem run_outcome_of_advance_none (h : d.advance halfWidth cmds s = (d', rs, left, none)) (k : Nat) :
    (d.run halfWidth cmds s (k + 1)).outcome = .next s := by
  simp only [Debugger.run, hr, h]

/-- A session goes on from the state that its step answers (R222). -/
theorem run_outcome_of_advance_next {t : State}
    (h : d.advance halfWidth cmds s = (d', rs, left, some (.next t))) (k : Nat) :
    (d.run halfWidth cmds s (k + 1)).outcome = (d'.run halfWidth left t k).outcome := by
  simp only [Debugger.run, hr, h]

end

/-- Settles O57, by induction on the bound: a session step is one plain step or none at all. -/
theorem debuggerIsTransparent : Obligations.DebuggerIsTransparent := by
  intro d halfWidth cmds s n
  induction n generalizing d cmds s with
  | zero => exact ⟨0, le_rfl, rfl⟩
  | succ n ih =>
    by_cases hr : s.status = .running
    · obtain ⟨d', rs, left, hadv | hadv⟩ := advance_result d halfWidth cmds s
      · obtain ⟨t, ht⟩ := stepAlwaysAnswersNext s
        rw [ht] at hadv
        obtain ⟨k, hk, hrun⟩ := ih d' left t
        refine ⟨k + 1, Nat.succ_le_succ hk, ?_⟩
        rw [run_outcome_of_advance_next hr hadv, hrun, run_succ Sys2Proof.core k s t ht]
      · exact ⟨0, Nat.zero_le _, run_outcome_of_advance_none hr hadv n⟩
    · exact ⟨0, Nat.zero_le _, run_outcome_of_not_running hr d halfWidth cmds n⟩

/-- A toggle of an address that can be one (R223). -/
theorem command_toggle_of_le {n : Nat} (h : n ≤ 32767) (d : Debugger) (halfWidth : Nat) (s : State) :
    d.command halfWidth s (.toggle n) = ({ d with breakpoints := toggleIn n d.breakpoints }, .toggled) :=
  if_pos h

/-- A toggle of an address past the end of memory (R223). -/
theorem command_toggle_of_gt {n : Nat} (h : 32767 < n) (d : Debugger) (halfWidth : Nat) (s : State) :
    d.command halfWidth s (.toggle n) = (d, .rejected) :=
  if_neg (Nat.not_le.2 h)

/-- Settles O58, by what a toggle leaves in a rising list; toggling twice gives the list back. -/
theorem breakpointToggle : Obligations.BreakpointToggle := by
  refine fun d halfWidth s n hrising => ⟨fun hn => ?_, fun hn => command_toggle_of_gt hn d halfWidth s⟩
  refine ⟨_, command_toggle_of_le hn d halfWidth s, rfl, toggleIn_rising n _ hrising,
    fun m => mem_toggleIn n m _ hrising, ?_⟩
  simp only [command_toggle_of_le hn, toggleIn_toggleIn n _ hrising]

end Sys2Proof.Machine
end

/-! ### Loads and snapshots of the engine

An image is loaded over the reset state. A snapshot is loaded exactly where it keeps the engine's invariants, which the
snapshot of a saved state does. -/

section
namespace Sys2Proof.Machine

/-- A load that answers a state was given an image that fits, and the state is the reset state with that image
(R38, R241). -/
theorem loadImage_eq_next {p : Config.Params} {image : List Word} {s : State} (h : loadImage p image = .next s) :
    image.length ≤ 32768 ∧ s = { State.reset with mem := Memory.ofWordsFrom 0 image, params := p } := by
  rcases Nat.lt_or_ge 32768 image.length with hlong | hfits
  · rw [loadImage_of_too_long p hlong] at h
    cases h
  · rw [loadImage_of_fits p hfits] at h
    cases h
    exact ⟨hfits, rfl⟩

/-- Settles O27: the image's memory is in canonical form, and the empty stack is within any capacity. -/
theorem loadMeetsInvariant : Obligations.LoadMeetsInvariant := by
  intro p image s h
  obtain ⟨hfits, rfl⟩ := loadImage_eq_next h
  obtain ⟨-, hpc, hstack, -⟩ := resetMeetsInvariant
  have hmem : (Memory.ofWordsFrom 0 image).wf := Memory.wf_ofWordsFrom ((Nat.zero_add _).trans_le hfits)
  exact ⟨hmem, hpc, hstack, (stackWithinCapacity_iff _).2 fun n _ => Nat.zero_le n⟩

/-- The engine's own save while RUNNING (R244). -/
theorem save_of_running {s : State} (h : s.status = .running) : s.save = .ok s.snapshot := by
  rw [State.save, h]

/-- The engine's own save while HALTED or FAULTED (R244, log 8). -/
theorem save_of_not_running {s : State} (h : s.status ≠ .running) : s.save = .error .saveNotRunning := by
  cases hs : s.status with
  | running => exact absurd hs h
  | halted => rw [State.save, hs]
  | faulted r => rw [State.save, hs]

/-- Settles O54: the status that a load sets is the one the state was saved with. -/
theorem snapshotRoundTrip : Obligations.SnapshotRoundTrip := by
  intro s u hs hrunning
  refine ⟨save_of_running hrunning, ?_⟩
  rw [load_snapshot hs u, ← hrunning]

/-- The engine's invariants as a snapshot can break them (R244). -/
theorem Snapshot.valid_iff (p : Snapshot) :
    p.valid = true ↔ (∀ v ∈ p.regs.toList, v ≤ 32767) ∧ p.pc ≤ 32768 ∧ (∀ w ∈ p.stack, w ≤ 65535) ∧
      (∀ w ∈ p.mem, w ≤ 65535) ∧ p.mem.length = 32768 := by
  simp only [Snapshot.valid, Bool.and_eq_true, List.all_eq_true, decide_eq_true_eq, and_assoc]

/-- A snapshot that is not valid is refused (R244). -/
theorem load_of_not_valid {p : Snapshot} (h : ¬ p.valid = true) (u : State) : u.load p = .refused .snapshotInvalid :=
  if_neg h

/-- Settles O56: each breach contradicts one part of what makes a snapshot valid. -/
theorem badSnapshotRefused : Obligations.BadSnapshotRefused := by
  refine ⟨fun u p hbad => load_of_not_valid (fun hvalid => ?_) u, fun s => save_of_not_running⟩
  obtain ⟨hregs, hpc, hstack, hmem, hlen⟩ := p.valid_iff.1 hvalid
  rcases hbad with ⟨v, hv, hgt⟩ | hgt | ⟨w, hw, hgt⟩ | ⟨w, hw, hgt⟩ | hne
  · exact Nat.not_lt.2 (hregs v hv) hgt
  · exact Nat.not_lt.2 hpc hgt
  · exact Nat.not_lt.2 (hmem w hw) hgt
  · exact Nat.not_lt.2 (hstack w hw) hgt
  · exact hne hlen

end Sys2Proof.Machine
end
